-- ==== Sys2Proof/Word.lean ====
section
/-! DEFINITION. The block's data widths (spec/00_scope.md R5, R7; spec/30_encoding.md R91). -/

namespace Sys2Proof

/-- A byte of memory, a general register, a timer (R5, R20). -/
abbrev Byte := BitVec 8

/-- PC, I, a stack entry, an opcode (R20, R90). -/
abbrev Half := BitVec 16

/-- A nibble of an opcode: a register index, a row count or a selector (R91). -/
abbrev Nibble := BitVec 4

/-- The field NNN of an opcode (R91). -/
abbrev Addr12 := BitVec 12

/-- The index of the flag register VF (R23). -/
abbrev vF : Nibble := 0xF#4

end Sys2Proof
end

