-- ==== Sys2Proof/Syntax.lean ====
section
/-! DEFINITION. The 34 instructions of spec/30_encoding.md R99, in the order of spec/opcode_table.json. A constructor
holds every bit of the opcode that the dispatcher does not test: the operands the instruction reads, and the nibbles
it ignores (`ign…`), which tell an alias encoding from the canonical one (R96; log 14). No meaning reads an ignored
nibble, but an error reports the whole opcode (R263). -/

namespace Sys2Proof

inductive Instr where
  /-- CLS, 00E0 (R203). -/
  | cls (ignX ignY : Nibble)
  /-- RET, 00EE (R140). -/
  | ret (ignX ignY : Nibble)
  /-- JP addr, 1NNN (R141). -/
  | jpAddr (nnn : Addr12)
  /-- CALL addr, 2NNN (R142). -/
  | callAddr (nnn : Addr12)
  /-- SE Vx, byte, 3XNN (R143). -/
  | seVxByte (x : Nibble) (nn : Byte)
  /-- SNE Vx, byte, 4XNN (R144). -/
  | sneVxByte (x : Nibble) (nn : Byte)
  /-- SE Vx, Vy, 5XY0 (R145). -/
  | seVxVy (x y ignN : Nibble)
  /-- LD Vx, byte, 6XNN (R170). -/
  | ldVxByte (x : Nibble) (nn : Byte)
  /-- ADD Vx, byte, 7XNN (R171). -/
  | addVxByte (x : Nibble) (nn : Byte)
  /-- LD Vx, Vy, 8XY0 (R181). -/
  | ldVxVy (x y : Nibble)
  /-- OR Vx, Vy, 8XY1 (R182). -/
  | orVxVy (x y : Nibble)
  /-- AND Vx, Vy, 8XY2 (R183). -/
  | andVxVy (x y : Nibble)
  /-- XOR Vx, Vy, 8XY3 (R184). -/
  | xorVxVy (x y : Nibble)
  /-- ADD Vx, Vy with carry, 8XY4 (R185). -/
  | addVxVy (x y : Nibble)
  /-- SUB Vx, Vy, 8XY5 (R186). -/
  | subVxVy (x y : Nibble)
  /-- SHR Vx, Vy, 8XY6; Y is encoded but not read (R187). -/
  | shrVxVy (x y : Nibble)
  /-- SUBN Vx, Vy, 8XY7 (R188). -/
  | subnVxVy (x y : Nibble)
  /-- SHL Vx, Vy, 8XYE; Y is encoded but not read (R189). -/
  | shlVxVy (x y : Nibble)
  /-- SNE Vx, Vy, 9XY0 (R146). -/
  | sneVxVy (x y ignN : Nibble)
  /-- LD I, addr, ANNN (R172). -/
  | ldIAddr (nnn : Addr12)
  /-- JP V0, addr, BNNN (R147). -/
  | jpV0Addr (nnn : Addr12)
  /-- RND Vx, byte, CXNN (R173). -/
  | rndVxByte (x : Nibble) (nn : Byte)
  /-- DRW Vx, Vy, nibble, DXYN (R204). -/
  | drwVxVyN (x y n : Nibble)
  /-- SKP Vx, EX9E (R148). -/
  | skpVx (x ignY : Nibble)
  /-- SKNP Vx, EXA1 (R149). -/
  | sknpVx (x ignY : Nibble)
  /-- LD Vx, DT, FX07 (R220). -/
  | ldVxDt (x ignY : Nibble)
  /-- LD Vx, K, FX0A (R221, R222). -/
  | ldVxK (x ignY : Nibble)
  /-- LD DT, Vx, FX15 (R223). -/
  | ldDtVx (x : Nibble)
  /-- LD ST, Vx, FX18 (R224). -/
  | ldStVx (x ignY : Nibble)
  /-- ADD I, Vx, FX1E (R235). -/
  | addIVx (x ignY : Nibble)
  /-- LD F, Vx, FX29 (R236). -/
  | ldFVx (x ignY : Nibble)
  /-- LD B, Vx, FX33 (R237). -/
  | ldBVx (x ignY : Nibble)
  /-- LD [I], Vx, FX55 (R238). -/
  | ldMemIVx (x : Nibble)
  /-- LD Vx, [I], FX65 (R239). -/
  | ldVxMemI (x : Nibble)
  deriving DecidableEq, Repr

end Sys2Proof
end

