-- ==== Sys2Proof/WellFormed.lean ====
section
/-! DEFINITION. The form an assembler writes (spec/30_encoding.md R99, R100: "An assembler emits the canonical pattern
… for each mnemonic, never an alias"). The types of Syntax hold every operand in its range already, so what is left to
check is that each ignored nibble is the one of the canonical pattern. An ill-formed instruction is an alias (R96):
the machine runs it all the same (log 14). -/

namespace Sys2Proof.Instr

/-- The instruction of the canonical pattern with the same operands (R96, R99). -/
def canonical : Instr → Instr
  | .cls _ _ => .cls 0x0#4 0xE#4
  | .ret _ _ => .ret 0x0#4 0xE#4
  | .jpAddr nnn => .jpAddr nnn
  | .callAddr nnn => .callAddr nnn
  | .seVxByte x nn => .seVxByte x nn
  | .sneVxByte x nn => .sneVxByte x nn
  | .seVxVy x y _ => .seVxVy x y 0x0#4
  | .ldVxByte x nn => .ldVxByte x nn
  | .addVxByte x nn => .addVxByte x nn
  | .ldVxVy x y => .ldVxVy x y
  | .orVxVy x y => .orVxVy x y
  | .andVxVy x y => .andVxVy x y
  | .xorVxVy x y => .xorVxVy x y
  | .addVxVy x y => .addVxVy x y
  | .subVxVy x y => .subVxVy x y
  | .shrVxVy x y => .shrVxVy x y
  | .subnVxVy x y => .subnVxVy x y
  | .shlVxVy x y => .shlVxVy x y
  | .sneVxVy x y _ => .sneVxVy x y 0x0#4
  | .ldIAddr nnn => .ldIAddr nnn
  | .jpV0Addr nnn => .jpV0Addr nnn
  | .rndVxByte x nn => .rndVxByte x nn
  | .drwVxVyN x y n => .drwVxVyN x y n
  | .skpVx x _ => .skpVx x 0x9#4
  | .sknpVx x _ => .sknpVx x 0xA#4
  | .ldVxDt x _ => .ldVxDt x 0x0#4
  | .ldVxK x _ => .ldVxK x 0x0#4
  | .ldDtVx x => .ldDtVx x
  | .ldStVx x _ => .ldStVx x 0x1#4
  | .addIVx x _ => .addIVx x 0x1#4
  | .ldFVx x _ => .ldFVx x 0x2#4
  | .ldBVx x _ => .ldBVx x 0x3#4
  | .ldMemIVx x => .ldMemIVx x
  | .ldVxMemI x => .ldVxMemI x

/-- The instruction is of its canonical pattern. -/
def wellFormed (i : Instr) : Bool := decide (i.canonical = i)

end Sys2Proof.Instr
end

