-- ==== Sys2Proof/Decode.lean ====
section
/-! DEFINITION. The decoder (spec/30_encoding.md R91, R94, R95) and the encoder (R99). The decoder reads exactly the
class and the selector nibbles; the other nibbles become fields of the instruction. -/

namespace Sys2Proof

/-- Why a word is no instruction: the five parts of the decode-error space (R97), and, for a list of bytes, that fewer
than two are left. -/
inductive DecodeReject where
  /-- Class 0x0 with N neither 0x0 nor 0xE. -/
  | class0Selector
  /-- Class 0x8 with N in 0x8 to 0xD or 0xF. -/
  | class8Selector
  /-- Class 0xE with N neither 0x1 nor 0xE. -/
  | classESelector
  /-- Class 0xF with N in 0x0, 0x1, 0x2, 0x4, 0x6, 0xB, 0xC, 0xD, 0xF. -/
  | classFSelector
  /-- Class 0xF with N = 0x5 and Y neither 0x1, 0x5 nor 0x6. -/
  | classF5Selector
  /-- Fewer than two bytes; a fetch always gives two. -/
  | tooFewBytes
  deriving DecidableEq, Repr

/-! ## Fields of an opcode (R91) -/

def fieldC (op : Half) : Nibble := op.extractLsb' 12 4
def fieldX (op : Half) : Nibble := op.extractLsb' 8 4
def fieldY (op : Half) : Nibble := op.extractLsb' 4 4
def fieldN (op : Half) : Nibble := op.extractLsb' 0 4
def fieldNN (op : Half) : Byte := op.extractLsb' 0 8
def fieldNNN (op : Half) : Addr12 := op.extractLsb' 0 12

/-! ## Decode (R94, R95) -/

/-- Class 0x0: second level on N. -/
def decodeClass0 (x y n : Nibble) : Except DecodeReject Instr :=
  match n.toNat with
  | 0x0 => .ok (.cls x y)
  | 0xE => .ok (.ret x y)
  | _ => .error .class0Selector

/-- Class 0x8: second level on N. -/
def decodeClass8 (x y n : Nibble) : Except DecodeReject Instr :=
  match n.toNat with
  | 0x0 => .ok (.ldVxVy x y)
  | 0x1 => .ok (.orVxVy x y)
  | 0x2 => .ok (.andVxVy x y)
  | 0x3 => .ok (.xorVxVy x y)
  | 0x4 => .ok (.addVxVy x y)
  | 0x5 => .ok (.subVxVy x y)
  | 0x6 => .ok (.shrVxVy x y)
  | 0x7 => .ok (.subnVxVy x y)
  | 0xE => .ok (.shlVxVy x y)
  | _ => .error .class8Selector

/-- Class 0xE: second level on N. -/
def decodeClassE (x y n : Nibble) : Except DecodeReject Instr :=
  match n.toNat with
  | 0xE => .ok (.skpVx x y)
  | 0x1 => .ok (.sknpVx x y)
  | _ => .error .classESelector

/-- Class 0xF with N = 0x5: third level on Y. -/
def decodeClassF5 (x y : Nibble) : Except DecodeReject Instr :=
  match y.toNat with
  | 0x1 => .ok (.ldDtVx x)
  | 0x5 => .ok (.ldMemIVx x)
  | 0x6 => .ok (.ldVxMemI x)
  | _ => .error .classF5Selector

/-- Class 0xF: second level on N. -/
def decodeClassF (x y n : Nibble) : Except DecodeReject Instr :=
  match n.toNat with
  | 0x7 => .ok (.ldVxDt x y)
  | 0xA => .ok (.ldVxK x y)
  | 0x8 => .ok (.ldStVx x y)
  | 0xE => .ok (.addIVx x y)
  | 0x9 => .ok (.ldFVx x y)
  | 0x3 => .ok (.ldBVx x y)
  | 0x5 => decodeClassF5 x y
  | _ => .error .classFSelector

/-- The instruction of an opcode: first level on the class (R94, R95). -/
def decode (op : Half) : Except DecodeReject Instr :=
  match (fieldC op).toNat with
  | 0x0 => decodeClass0 (fieldX op) (fieldY op) (fieldN op)
  | 0x1 => .ok (.jpAddr (fieldNNN op))
  | 0x2 => .ok (.callAddr (fieldNNN op))
  | 0x3 => .ok (.seVxByte (fieldX op) (fieldNN op))
  | 0x4 => .ok (.sneVxByte (fieldX op) (fieldNN op))
  | 0x5 => .ok (.seVxVy (fieldX op) (fieldY op) (fieldN op))
  | 0x6 => .ok (.ldVxByte (fieldX op) (fieldNN op))
  | 0x7 => .ok (.addVxByte (fieldX op) (fieldNN op))
  | 0x8 => decodeClass8 (fieldX op) (fieldY op) (fieldN op)
  | 0x9 => .ok (.sneVxVy (fieldX op) (fieldY op) (fieldN op))
  | 0xA => .ok (.ldIAddr (fieldNNN op))
  | 0xB => .ok (.jpV0Addr (fieldNNN op))
  | 0xC => .ok (.rndVxByte (fieldX op) (fieldNN op))
  | 0xD => .ok (.drwVxVyN (fieldX op) (fieldY op) (fieldN op))
  | 0xE => decodeClassE (fieldX op) (fieldY op) (fieldN op)
  | _ => decodeClassF (fieldX op) (fieldY op) (fieldN op)

/-- The opcode of two bytes, big-endian: the byte at the lower address in bits [15:8] (R66). -/
def mergeBytes (high low : Byte) : Half := high ++ low

/-- The instruction at the head of a list of bytes, and the bytes after it. Every instruction has two (R90). -/
def decodeBytes : List Byte → Except DecodeReject (Instr × List Byte)
  | high :: low :: rest => (decode (mergeBytes high low)).map fun i => (i, rest)
  | _ => .error .tooFewBytes

/-! ## Encode (R99) -/

/-- An opcode from its four nibbles. -/
def opcodeXYN (c x y n : Nibble) : Half := c ++ x ++ y ++ n

/-- An opcode from its class, X and byte immediate. -/
def opcodeXNN (c x : Nibble) (nn : Byte) : Half := c ++ x ++ nn

/-- An opcode from its class and address immediate. -/
def opcodeNNN (c : Nibble) (nnn : Addr12) : Half := c ++ nnn

/-- The opcode of an instruction. -/
def encode : Instr → Half
  | .cls x y => opcodeXYN 0x0#4 x y 0x0#4
  | .ret x y => opcodeXYN 0x0#4 x y 0xE#4
  | .jpAddr nnn => opcodeNNN 0x1#4 nnn
  | .callAddr nnn => opcodeNNN 0x2#4 nnn
  | .seVxByte x nn => opcodeXNN 0x3#4 x nn
  | .sneVxByte x nn => opcodeXNN 0x4#4 x nn
  | .seVxVy x y n => opcodeXYN 0x5#4 x y n
  | .ldVxByte x nn => opcodeXNN 0x6#4 x nn
  | .addVxByte x nn => opcodeXNN 0x7#4 x nn
  | .ldVxVy x y => opcodeXYN 0x8#4 x y 0x0#4
  | .orVxVy x y => opcodeXYN 0x8#4 x y 0x1#4
  | .andVxVy x y => opcodeXYN 0x8#4 x y 0x2#4
  | .xorVxVy x y => opcodeXYN 0x8#4 x y 0x3#4
  | .addVxVy x y => opcodeXYN 0x8#4 x y 0x4#4
  | .subVxVy x y => opcodeXYN 0x8#4 x y 0x5#4
  | .shrVxVy x y => opcodeXYN 0x8#4 x y 0x6#4
  | .subnVxVy x y => opcodeXYN 0x8#4 x y 0x7#4
  | .shlVxVy x y => opcodeXYN 0x8#4 x y 0xE#4
  | .sneVxVy x y n => opcodeXYN 0x9#4 x y n
  | .ldIAddr nnn => opcodeNNN 0xA#4 nnn
  | .jpV0Addr nnn => opcodeNNN 0xB#4 nnn
  | .rndVxByte x nn => opcodeXNN 0xC#4 x nn
  | .drwVxVyN x y n => opcodeXYN 0xD#4 x y n
  | .skpVx x y => opcodeXYN 0xE#4 x y 0xE#4
  | .sknpVx x y => opcodeXYN 0xE#4 x y 0x1#4
  | .ldVxDt x y => opcodeXYN 0xF#4 x y 0x7#4
  | .ldVxK x y => opcodeXYN 0xF#4 x y 0xA#4
  | .ldDtVx x => opcodeXYN 0xF#4 x 0x1#4 0x5#4
  | .ldStVx x y => opcodeXYN 0xF#4 x y 0x8#4
  | .addIVx x y => opcodeXYN 0xF#4 x y 0xE#4
  | .ldFVx x y => opcodeXYN 0xF#4 x y 0x9#4
  | .ldBVx x y => opcodeXYN 0xF#4 x y 0x3#4
  | .ldMemIVx x => opcodeXYN 0xF#4 x 0x5#4 0x5#4
  | .ldVxMemI x => opcodeXYN 0xF#4 x 0x6#4 0x5#4

/-- The bytes of an opcode as they stand in memory, lowest address first (R66). -/
def opcodeBytes (op : Half) : List Byte := [op.extractLsb' 8 8, op.extractLsb' 0 8]

/-- The bytes of an instruction as they stand in memory. -/
def encodeBytes (i : Instr) : List Byte := opcodeBytes (encode i)

/-! ## The host's reading of the opcode table -/

/-- The instruction word the opcode table numbers: one 16-bit word, its bits above `nbits` zero. -/
def tableWord (nbits w : Nat) : Half := BitVec.ofNat 16 (w % 2 ^ nbits)

/-- The instruction the decoder reads from that word, laid out in memory's byte order. -/
def decodeTableWord (nbits w : Nat) : Option Instr :=
  match decodeBytes (opcodeBytes (tableWord nbits w)) with
  | .ok (i, _) => some i
  | .error _ => none

end Sys2Proof
end

