-- ==== Sys2Proof/Config.lean ====
section
/-! DEFINITION. The block's parameters (spec/00_scope.md R5): the sizes the spec fixes, the two parameters it leaves
OPEN, and the free values of the host's inputs. An `opaque` constant has no body: no proof can use a value of it. -/

namespace Sys2Proof.Config

/-- MEM_SIZE: addresses 0x000 to 0xFFF (R5, R60). -/
abbrev memSize : Nat := 0x1000

/-- PROGRAM_BASE, where a program is loaded and where PC is after reset (R5, R295). -/
abbrev programBase : Nat := 0x200

/-- STACK_DEPTH (R5, R30). -/
abbrev stackDepth : Nat := 16

/-- FONT_SIZE: 16 glyphs of 5 bytes (R5). -/
abbrev fontSize : Nat := 80

/-- FB_W (R5, R200). -/
abbrev fbWidth : Nat := 64

/-- FB_H (R5, R200). -/
abbrev fbHeight : Nat := 32

/-- FONT_BASE, an OPEN parameter; its type holds exactly 0 to 0x1B0, the range R5 gives it (R5, R6, decision D1; log 1). -/
opaque fontBase : Fin 0x1B1

/-- FONT_TABLE, an OPEN parameter of 80 bytes (R5, R292, decision D2; log 1). -/
opaque fontTable : Vector Byte 80

/-- The key snapshot of cycle n where the host has scheduled none: a free value (R41, R127; log 3). -/
opaque freeKeys : Nat → BitVec 16

/-- The random byte of cycle n where the host has scheduled none: "a draw under no law" (R174; log 3). -/
opaque freeRnd : Nat → Byte

end Sys2Proof.Config
end

