-- ==== Sys2Proof/Machine/Memory.lean ====
section
/-! DEFINITION. The byte store MEM (spec/20_memory.md), as a sorted list of the bytes that differ from what reset
leaves: equal memories are equal lists. -/

namespace Sys2Proof.Machine

/-- MEM: the listed bytes, addresses strictly rising, none equal to what an unlisted address reads as (`Memory.wf`). -/
abbrev Memory := List Host.Cell

namespace Memory

/-- What an unlisted address reads as: the reset contents, which are FONT_TABLE at FONT_BASE to FONT_BASE + 79 and 0x00
everywhere else (R45, R77, R292; log 1, log 6). The font ends below PROGRAM_BASE (R6), so an address from there on is
0x00 whatever FONT_BASE is. -/
def resetByte (a : Nat) : Byte :=
  if Config.programBase ≤ a then 0x00#8
  else if Config.fontBase.val ≤ a then Config.fontTable.toList.getD (a - Config.fontBase.val) 0x00#8
  else 0x00#8

/-- The byte at an address (R70: a read has no side effect and returns the last value written). -/
def read : Memory → Nat → Byte
  | [], a => resetByte a
  | (k, b) :: m, a => if k = a then b else read m a

/-- Takes an address out of the list. -/
def erase (m : Memory) (a : Nat) : Memory := m.filter fun c => c.1 != a

/-- Lists a byte at an address, in its place in the order. -/
def insert : Memory → Nat → Byte → Memory
  | [], a, b => [(a, b)]
  | (k, c) :: m, a, b =>
    if a < k then (a, b) :: (k, c) :: m
    else if a = k then (a, b) :: m
    else (k, c) :: insert m a b

/-- Writes a byte (R70), keeping the canonical form: the byte reset leaves there is not listed. -/
def write (m : Memory) (a : Nat) (b : Byte) : Memory :=
  if b = resetByte a then erase m a else insert m a b

/-- Every listed address is `lo` or above, and they rise strictly. -/
def risingAbove : Nat → Memory → Bool
  | _, [] => true
  | lo, (k, _) :: m => decide (lo ≤ k) && risingAbove (k + 1) m

/-- The canonical form: strictly rising addresses below MEM_SIZE, no byte listed that reset leaves there. -/
def wf (m : Memory) : Bool :=
  risingAbove 0 m && m.all fun c => decide (c.1 < Config.memSize) && decide (c.2 ≠ resetByte c.1)

/-! ## The checked accesses of R10: an address of MEM_SIZE or above is the error, with that address -/

/-- MemRead(addr, 1). -/
def memRead (m : Memory) (a : Nat) : Except Nat Byte :=
  if a < Config.memSize then .ok (m.read a) else .error a

/-- MemWrite(addr, 1, v). -/
def memWrite (m : Memory) (a : Nat) (b : Byte) : Except Nat Memory :=
  if a < Config.memSize then .ok (m.write a b) else .error a

/-- `n` reads at consecutive addresses, lowest first; the first failing address is the error (R63, R205). -/
def loadBytes (m : Memory) (base : Nat) : Nat → Except Nat (List Byte)
  | 0 => .ok []
  | n + 1 =>
    match memRead m base with
    | .error a => .error a
    | .ok b =>
      match loadBytes m (base + 1) n with
      | .error a => .error a
      | .ok bs => .ok (b :: bs)

/-- Writes at consecutive addresses, lowest first; the first failing address is the error, and no write of a failing
sequence is kept (R12, R63, R205). -/
def storeBytes (m : Memory) (base : Nat) : List Byte → Except Nat Memory
  | [] => .ok m
  | b :: bs =>
    match memWrite m base b with
    | .error a => .error a
    | .ok m' => storeBytes m' (base + 1) bs

end Memory

end Sys2Proof.Machine
end

