-- ==== Sys2Proof/Machine/State.lean ====
section
/-! DEFINITION. The state of the block (spec/10_state.md R20, R37), its input ports (R41), and its value after reset
(R45). Plain data. -/

namespace Sys2Proof.Machine

/-- The four results a cycle reports (R37, R261). -/
inductive CycleStatus where
  | completed
  | waitingForKey
  | decodeError
  | fatalError
  deriving DecidableEq, Repr

/-- The error kinds of R260. -/
inductive Cause where
  | none
  | decode
  | stackOverflow
  | stackUnderflow
  | memRange
  | fetchRange
  deriving DecidableEq, Repr

/-- STATUS, the latched result of the last cycle, by its fields (R37; log 13). -/
structure Status where
  status : CycleStatus
  cause  : Cause
  info   : BitVec 17
  beep   : Bool
  deriving DecidableEq, Repr

/-- The inputs of one cycle (R41). -/
structure Inputs where
  /-- keys[k] = 1 when hex key k is pressed in the snapshot. -/
  keys   : BitVec 16
  /-- The random byte CXNN uses this cycle. -/
  rnd    : Byte
  /-- Whether this cycle ends with a timer tick. -/
  tickEn : Bool
  deriving DecidableEq, Repr

/-- The state of the block (R20), and the inputs the host supplies, which R21 keeps apart from it: `inp` for the coming
cycle, `pending` for the cycles after it, and `cycle`, which the free values of Config are applied to (log 2, log 3). -/
structure State where
  /-- V0 to VF (R22). -/
  v       : Vector Byte 16
  /-- I (R28). -/
  i       : Half
  /-- PC (R25). -/
  pc      : Half
  /-- SP, the number of stack entries in use, 0 to 16 (R30). -/
  sp      : Fin 17
  /-- STACK[0] (oldest) to STACK[15] (R30). -/
  stack   : Vector Half 16
  /-- DT (R33). -/
  dt      : Byte
  /-- ST (R34). -/
  st      : Byte
  /-- FB(x, y) is bit x of row y (R35, R200; log 21). -/
  fb      : Vector (BitVec 64) 32
  /-- MEM (R36, R60). -/
  mem     : Memory
  /-- STATUS (R37). -/
  status  : Status
  /-- The input ports of the coming cycle (R41). -/
  inp     : Inputs
  /-- What the host has scheduled for the cycles after it, the next one first (R41). -/
  pending : List Inputs
  /-- How many cycles have ended. -/
  cycle   : Nat
  deriving DecidableEq, Repr

/-- The machine never stops with a fault: every error of R260 is reported in STATUS and the cycle ends in a next state
(R266; log 12). So this type has no constructor. -/
inductive Fault where
  deriving DecidableEq, Repr

/-- Why the model gives an instruction no meaning. -/
inductive Refusal where
  /-- Raised by an arm of `exec` whose instruction has no meaning in the model; safe. No arm raises it. -/
  | notModelled (mnemonic : String)
  deriving DecidableEq, Repr

/-- The result of a meaning or of a step. -/
abbrev Result := Host.Outcome State Fault Refusal

/-- The block right after reset (R45, R297). MEM lists nothing, so it reads as the font and 0x00. The values of `inp`,
`pending` and `cycle` are the model's (log 2). -/
def State.reset : State where
  v := Vector.replicate 16 0x00#8
  i := 0x0000#16
  pc := 0x0200#16
  sp := 0
  stack := Vector.replicate 16 0x0000#16
  dt := 0x00#8
  st := 0x00#8
  fb := Vector.replicate 32 0#64
  mem := []
  status := { status := .completed, cause := .none, info := 0#17, beep := false }
  inp := { keys := 0x0000#16, rnd := 0x00#8, tickEn := true }
  pending := []
  cycle := 0

end Sys2Proof.Machine
end

