-- ==== Sys2Proof/Machine/Ops.lean ====
section
/-! DEFINITION. The named operations over registers, stack, memory, STATUS, timers and inputs that the meanings and the
step share. The block has no trap mechanism (spec/60_exceptions.md R266, R267): what it does at an error is
`raiseFatal` and `raiseDecode`, and there is no return from one. -/

namespace Sys2Proof.Machine

/-! ## Registers (R22, R25, R28) -/

/-- V[x]. -/
def State.reg (s : State) (x : Nibble) : Byte := s.v[x.toNat]'x.isLt

/-- V[x] <- b. -/
def State.setReg (s : State) (x : Nibble) (b : Byte) : State := { s with v := s.v.set x.toNat b x.isLt }

/-- PC <- a (R13). -/
def State.setPc (s : State) (a : Half) : State := { s with pc := a }

/-- I <- a. -/
def State.setI (s : State) (a : Half) : State := { s with i := a }

/-- PC <- pc0 + 2, where PC still holds pc0 (R25; log 19). -/
def State.advance (s : State) : State := s.setPc (s.pc + 2#16)

/-- V[0] to V[x], lowest first (R238). -/
def State.regsUpTo (s : State) (x : Nibble) : List Byte := s.v.toList.take (x.toNat + 1)

/-- Writes the bytes of a list to V[k], V[k + 1], and so on. -/
def setRegsFrom (v : Vector Byte 16) (k : Nat) : List Byte → Vector Byte 16
  | [] => v
  | b :: bs => setRegsFrom (v.setIfInBounds k b) (k + 1) bs

/-- V[r] <- b[r] for every byte of the list, from V[0] on (R239). -/
def State.setRegs (s : State) (bs : List Byte) : State := { s with v := setRegsFrom s.v 0 bs }

/-! ## Call stack (R30, R31) -/

/-- STACK[k]. -/
def State.stackAt (s : State) (k : Fin 16) : Half := s.stack[k.val]'k.isLt

/-- Push(a), or nothing where all 16 entries are in use. -/
def State.push (s : State) (a : Half) : Option State :=
  if h : s.sp.val < 16 then
    some { s with stack := s.stack.set s.sp.val a h, sp := ⟨s.sp.val + 1, Nat.succ_lt_succ h⟩ }
  else none

/-- Pop(): the newest entry and the state without it, or nothing where no entry is in use. The popped entry keeps its
value (R30). -/
def State.pop (s : State) : Option (Half × State) :=
  if h : 0 < s.sp.val then
    have below : s.sp.val - 1 < 16 := by have := s.sp.isLt; omega
    some (s.stack[s.sp.val - 1]'below, { s with sp := ⟨s.sp.val - 1, Nat.lt_succ_of_lt below⟩ })
  else none

/-! ## STATUS and the outcomes of a cycle (R37, R116) -/

/-- Codes of R37 and R260. -/
def CycleStatus.code : CycleStatus → BitVec 2
  | .completed => 0#2
  | .waitingForKey => 1#2
  | .decodeError => 2#2
  | .fatalError => 3#2

/-- Codes of R37 and R260; 6 and 7 are no cause. -/
def Cause.code : Cause → BitVec 3
  | .none => 0#3
  | .decode => 1#3
  | .stackOverflow => 2#3
  | .stackUnderflow => 3#3
  | .memRange => 4#3
  | .fetchRange => 5#3

/-- The 25 bits of STATUS: reserved [24:23] = 0, beep [22], info [21:5], cause [4:2], status [1:0] (R37). -/
def Status.word (st : Status) : BitVec 25 :=
  0#2 ++ BitVec.ofBool st.beep ++ st.info ++ st.cause.code ++ st.status.code

/-- STATUS.info of an opcode or of pc0 (R263). -/
def infoOfHalf (a : Half) : BitVec 17 := a.setWidth 17

/-- STATUS.info of a failing address (R263); the largest is 0x1000E (R64). -/
def infoOfAddress (a : Nat) : BitVec 17 := BitVec.ofNat 17 a

/-- STATUS takes the outcome's status, cause and info; the tick writes beep at the end of the cycle (R126; log 19). -/
def State.report (s : State) (status : CycleStatus) (cause : Cause) (info : BitVec 17) : State :=
  { s with status := { status := status, cause := cause, info := info, beep := false } }

/-- The instruction completes with the writes it has made (R117). -/
def complete (s : State) : Result := .next (s.report .completed .none 0#17)

/-- FX0A waits: all state keeps its value (R222). -/
def waitForKey (s : State) : Result := .next (s.report .waitingForKey .none 0#17)

/-- raise Fatal(cause, info), on the state the instruction began in: none of its writes takes effect and PC stays pc0
(R12, R119). -/
def raiseFatal (cause : Cause) (info : BitVec 17) (s : State) : Result := .next (s.report .fatalError cause info)

/-- raise DecodeError(op): PC <- pc0 + 2 and nothing else changes (R118). -/
def raiseDecode (op : Half) (s : State) : Result := .next (s.advance.report .decodeError .decode (infoOfHalf op))

/-! ## Fetch (R112, R113) -/

/-- The opcode at PC, or nothing where PC + 1 is no address. -/
def State.fetch (s : State) : Option Half :=
  if s.pc.toNat + 1 < Config.memSize then some (mergeBytes (s.mem.read s.pc.toNat) (s.mem.read (s.pc.toNat + 1)))
  else none

/-- The outcome of a cycle whose fetch is out of range (R113). -/
def raiseFetch (s : State) : Result := raiseFatal .fetchRange (infoOfHalf s.pc) s

/-! ## The end of a cycle (R122 to R126) -/

/-- One tick of a down-counter: it never goes below 0 (R123). -/
def countDown (b : Byte) : Byte := if b = 0x00#8 then 0x00#8 else b - 1#8

/-- Tick(tick_en): the timers and the beep (R122, R123, R124). -/
def State.tick (s : State) : State :=
  if s.inp.tickEn then
    { s with
      dt := countDown s.dt
      st := countDown s.st
      status := { s.status with beep := decide (s.st = 0x01#8) } }
  else { s with status := { s.status with beep := false } }

/-- The inputs of the next cycle: what the host has scheduled; else free keys and a free random byte, with tick_en held
(R41, R174; log 3, log 4). -/
def State.nextInputs (s : State) : Inputs :=
  match s.pending with
  | i :: _ => i
  | [] => { keys := Config.freeKeys s.cycle, rnd := Config.freeRnd s.cycle, tickEn := s.inp.tickEn }

/-- The host supplies the inputs of the next cycle (R41, R111). -/
def State.sampleInputs (s : State) : State :=
  { s with inp := s.nextInputs, pending := s.pending.tail, cycle := s.cycle + 1 }

/-- What follows step 4 of every cycle, whatever its outcome: the tick, and then the host's inputs for the next cycle
(R110, R125). -/
def State.endCycle (s : State) : State := s.tick.sampleInputs

/-- A cycle's outcome with its end. -/
def finish : Result → Result
  | .next t => .next t.endCycle
  | .fault f => .fault f
  | .refused r => .refused r

/-! ## What the host does between cycles -/

/-- `reset` (R297): every piece of state of the block as after reset; the inputs are the host's (R21; log 18). -/
def State.hostReset (s : State) : State :=
  { State.reset with inp := s.inp, pending := s.pending, cycle := s.cycle }

/-- `load_program(bytes)` (R293): the bytes from PROGRAM_BASE on, or nothing where they do not fit, and then the load is
rejected and the block is as before the call (R294). -/
def State.loadProgram (s : State) (bytes : List Byte) : Option State :=
  match s.mem.storeBytes Config.programBase bytes with
  | .ok m => some { s with mem := m }
  | .error _ => none

/-- Puts an opcode where the next cycle fetches; a PC that no fetch can read is put at PROGRAM_BASE first (log 20). -/
def State.placeOpcode (s : State) (op : Half) : State :=
  let pc : Half := if s.pc.toNat + 1 < Config.memSize then s.pc else BitVec.ofNat 16 Config.programBase
  { s with
    pc := pc
    mem := (s.mem.write pc.toNat (op.extractLsb' 8 8)).write (pc.toNat + 1) (op.extractLsb' 0 8) }

end Sys2Proof.Machine
end

