-- ==== Sys2Proof/Machine/Flags.lean ====
section
/-! DEFINITION. The flag computations: what 8XY4 to 8XYE, FX1E and DXYN write to VF (spec/43_alu.md R185 to R191), each
from operand values read before any write (R121, R180). -/

namespace Sys2Proof.Machine

/-- A flag as VF holds it. -/
def flagByte (b : Bool) : Byte := if b then 0x01#8 else 0x00#8

/-- Carry out of vx + vy (R185). -/
def carryOf (vx vy : Byte) : Bool := decide (255 < vx.toNat + vy.toNat)

/-- No borrow in minuend - subtrahend (R186, R188). -/
def noBorrowOf (minuend subtrahend : Byte) : Bool := decide (subtrahend.toNat ≤ minuend.toNat)

/-- The bit a right shift moves out (R187). -/
def lowBitOf (vx : Byte) : Bool := vx.getLsbD 0

/-- The bit a left shift moves out (R189). -/
def highBitOf (vx : Byte) : Bool := vx.getLsbD 7

/-- The exact sum I + V[X] passes 0xFFF (R235). -/
def indexOverflowOf (base : Half) (vx : Byte) : Bool := decide (0xFFF < base.toNat + vx.toNat)

/-- VF <- flag and then V[X] <- result: where X = 0xF the result stays (R190; log 7). -/
def State.setFlagThenReg (s : State) (flag : Bool) (x : Nibble) (result : Byte) : State :=
  (s.setReg vF (flagByte flag)).setReg x result

end Sys2Proof.Machine
end

