-- ==== Sys2Proof/Machine/Alu.lean ====
section
/-! DEFINITION. The ALU group 8XY_ (spec/43_alu.md R180 to R191). Each meaning takes V[X] and V[Y] from the state the
instruction began in (R180). -/

namespace Sys2Proof.Machine

/-- LD Vx, Vy (R181). -/
def execLdVxVy (x y : Nibble) (s : State) : Result := complete (s.setReg x (s.reg y)).advance

/-- OR Vx, Vy (R182). -/
def execOrVxVy (x y : Nibble) (s : State) : Result := complete (s.setReg x (s.reg x ||| s.reg y)).advance

/-- AND Vx, Vy (R183). -/
def execAndVxVy (x y : Nibble) (s : State) : Result := complete (s.setReg x (s.reg x &&& s.reg y)).advance

/-- XOR Vx, Vy (R184). -/
def execXorVxVy (x y : Nibble) (s : State) : Result := complete (s.setReg x (s.reg x ^^^ s.reg y)).advance

/-- ADD Vx, Vy with carry (R185). -/
def execAddVxVy (x y : Nibble) (s : State) : Result :=
  complete (s.setFlagThenReg (carryOf (s.reg x) (s.reg y)) x (s.reg x + s.reg y)).advance

/-- SUB Vx, Vy with borrow (R186). -/
def execSubVxVy (x y : Nibble) (s : State) : Result :=
  complete (s.setFlagThenReg (noBorrowOf (s.reg x) (s.reg y)) x (s.reg x - s.reg y)).advance

/-- SHR Vx: V[Y] is not read (R187). -/
def execShrVxVy (x : Nibble) (s : State) : Result :=
  complete (s.setFlagThenReg (lowBitOf (s.reg x)) x (s.reg x >>> 1)).advance

/-- SUBN Vx, Vy (R188). -/
def execSubnVxVy (x y : Nibble) (s : State) : Result :=
  complete (s.setFlagThenReg (noBorrowOf (s.reg y) (s.reg x)) x (s.reg y - s.reg x)).advance

/-- SHL Vx: V[Y] is not read (R189). -/
def execShlVxVy (x : Nibble) (s : State) : Result :=
  complete (s.setFlagThenReg (highBitOf (s.reg x)) x (s.reg x <<< 1)).advance

end Sys2Proof.Machine
end

