-- ==== Sys2Proof/Machine/Operands.lean ====
section
/-! DEFINITION. The operands the instructions form: targets, keys, addresses and digits (spec/30_encoding.md R93;
spec/41_control_flow.md; spec/46_index_memory.md R240). -/

namespace Sys2Proof.Machine

/-- PC after a skip: pc0 + 4 where it is taken, else pc0 + 2 (R143 to R149). -/
def State.skipTarget (s : State) (taken : Bool) : Half := if taken then s.pc + 4#16 else s.pc + 2#16

/-- A 12-bit absolute address as PC or I holds it (R93). -/
def absolute (nnn : Addr12) : Half := nnn.setWidth 16

/-- NNN + V0, an exact sum of at most 0x10FE (R147). -/
def offsetTarget (nnn : Addr12) (v0 : Byte) : Half := nnn.setWidth 16 + v0.setWidth 16

/-- keys[k] for k = V[X] & 0xF (R148, R149; log 9). -/
def keyPressed (keys : BitVec 16) (vx : Byte) : Bool := keys.getLsbD (vx &&& 0x0F#8).toNat

/-- The least index k with keys[k] = 1, or nothing where no key is pressed (R221; log 8). -/
def lowestKey (keys : BitVec 16) : Option Nat := (List.range 16).find? fun k => keys.getLsbD k

/-- EA = I + r, an exact sum (R240). -/
def State.effectiveAddress (s : State) (r : Nat) : Nat := s.i.toNat + r

/-- FONT_BASE + 5 * d for d = V[X] & 0xF (R236; log 1, log 9). -/
def glyphAddress (vx : Byte) : Half := BitVec.ofNat 16 (Config.fontBase.val + 5 * (vx &&& 0x0F#8).toNat)

/-- The hundreds, tens and ones of a byte (R237). -/
def bcdDigits (b : Byte) : List Byte :=
  [BitVec.ofNat 8 (b.toNat / 100), BitVec.ofNat 8 (b.toNat / 10 % 10), BitVec.ofNat 8 (b.toNat % 10)]

end Sys2Proof.Machine
end

