-- ==== Sys2Proof/Machine/ControlFlow.lean ====
section
/-! DEFINITION. Return, jumps, call and skips (spec/41_control_flow.md R140 to R150). No transfer checks its target
(R150). -/

namespace Sys2Proof.Machine

/-- RET (R140). -/
def execRet (x y : Nibble) (s : State) : Result :=
  match s.pop with
  | none => raiseFatal .stackUnderflow (infoOfHalf (encode (.ret x y))) s
  | some (a, t) => complete (t.setPc a)

/-- JP addr (R141). -/
def execJpAddr (nnn : Addr12) (s : State) : Result := complete (s.setPc (absolute nnn))

/-- CALL addr: the return address is pc0 + 2 (R142). -/
def execCallAddr (nnn : Addr12) (s : State) : Result :=
  match s.push (s.pc + 2#16) with
  | none => raiseFatal .stackOverflow (infoOfHalf (encode (.callAddr nnn))) s
  | some t => complete (t.setPc (absolute nnn))

/-- SE Vx, byte (R143). -/
def execSeVxByte (x : Nibble) (nn : Byte) (s : State) : Result :=
  complete (s.setPc (s.skipTarget (decide (s.reg x = nn))))

/-- SNE Vx, byte (R144). -/
def execSneVxByte (x : Nibble) (nn : Byte) (s : State) : Result :=
  complete (s.setPc (s.skipTarget (decide (s.reg x ≠ nn))))

/-- SE Vx, Vy (R145). -/
def execSeVxVy (x y : Nibble) (s : State) : Result :=
  complete (s.setPc (s.skipTarget (decide (s.reg x = s.reg y))))

/-- SNE Vx, Vy (R146). -/
def execSneVxVy (x y : Nibble) (s : State) : Result :=
  complete (s.setPc (s.skipTarget (decide (s.reg x ≠ s.reg y))))

/-- JP V0, addr (R147). -/
def execJpV0Addr (nnn : Addr12) (s : State) : Result := complete (s.setPc (offsetTarget nnn (s.reg 0x0#4)))

/-- SKP Vx (R148). -/
def execSkpVx (x : Nibble) (s : State) : Result :=
  complete (s.setPc (s.skipTarget (keyPressed s.inp.keys (s.reg x))))

/-- SKNP Vx (R149). -/
def execSknpVx (x : Nibble) (s : State) : Result :=
  complete (s.setPc (s.skipTarget (!keyPressed s.inp.keys (s.reg x))))

end Sys2Proof.Machine
end

