-- ==== Sys2Proof/Machine/Framebuffer.lean ====
section
/-! DEFINITION. The framebuffer and its address translator (spec/44_display.md R200, R201), and the drawing of a sprite
as R204's loop over rows and columns. -/

namespace Sys2Proof.Machine

/-- The framebuffer: 32 rows of 64 pixels, FB(x, y) being bit x of row y (R200; log 21). -/
abbrev Framebuffer := Vector (BitVec 64) 32

/-- The address translator: the bit index of FB(x, y) in the 2048 bits (R200). -/
def pixelIndex (x y : Nat) : Nat := y * Config.fbWidth + x

/-- The pixel of a bit index: (p mod 64, p div 64) (R200). -/
def pixelOfIndex (p : Nat) : Nat × Nat := (p % Config.fbWidth, p / Config.fbWidth)

/-- FB(x, y), the host's read port (R202), for x in 0 to 63 and y in 0 to 31. -/
def Framebuffer.pixel (fb : Framebuffer) (x y : Nat) : Bool :=
  if h : y < Config.fbHeight then (fb[y]'h).getLsbD x else false

/-- The whole 2048 bits in the order of R200, the host's other read port (R202). -/
def Framebuffer.bits (fb : Framebuffer) : BitVec 2048 :=
  BitVec.ofNat 2048 (fb.toList.foldr (fun row above => row.toNat + 2 ^ Config.fbWidth * above) 0)

/-- Every pixel 0. -/
def Framebuffer.clear : Framebuffer := Vector.replicate 32 0#64

/-- FB(x, y) <- FB(x, y) ^ 1. -/
def Framebuffer.flip (fb : Framebuffer) (x y : Nat) : Framebuffer :=
  if h : y < Config.fbHeight then fb.set y (fb[y]'h ^^^ BitVec.twoPow 64 x) h else fb

/-- FB(x, y) of the block. -/
def State.pixel (s : State) (x y : Nat) : Bool := Framebuffer.pixel s.fb x y

/-- The framebuffer and the collision bit while a sprite is drawn. -/
structure Canvas where
  fb        : Framebuffer
  collision : Bool
  deriving DecidableEq, Repr

/-- One sprite bit at one pixel: a 0 bit leaves it, a 1 bit flips it, and a set pixel that is flipped is a collision
(R204). -/
def Canvas.plot (cv : Canvas) (bit : Bool) (x y : Nat) : Canvas :=
  if bit then
    { fb := Framebuffer.flip cv.fb x y, collision := cv.collision || Framebuffer.pixel cv.fb x y }
  else cv

/-- The last `n` columns of a sprite row, 7 - c being the bit of column c, at ((x0 + c) mod 64, py) (R201, R204). -/
def Canvas.plotColumns (cv : Canvas) (row : Byte) (x0 py : Nat) : Nat → Canvas
  | 0 => cv
  | n + 1 =>
    let c := 7 - n
    (cv.plot (row.getLsbD (7 - c)) ((x0 + c) % Config.fbWidth) py).plotColumns row x0 py n

/-- The rows of a sprite from row r on, row r at (y0 + r) mod 32 (R201, R204). -/
def Canvas.plotRows (cv : Canvas) (x0 y0 : Nat) (r : Nat) : List Byte → Canvas
  | [] => cv
  | row :: rows => (cv.plotColumns row x0 ((y0 + r) % Config.fbHeight) 8).plotRows x0 y0 (r + 1) rows

/-- A sprite drawn at the position V[X], V[Y], which are first reduced mod 64 and mod 32 (R201, R204). -/
def drawSprite (fb : Framebuffer) (vx vy : Byte) (rows : List Byte) : Canvas :=
  Canvas.plotRows { fb := fb, collision := false } (vx.toNat % Config.fbWidth) (vy.toNat % Config.fbHeight) 0 rows

end Sys2Proof.Machine
end

