-- ==== Sys2Proof/Machine/Display.lean ====
section
/-! DEFINITION. CLS and DRW (spec/44_display.md R203 to R205). -/

namespace Sys2Proof.Machine

/-- CLS (R203). -/
def execCls (s : State) : Result := complete ({ s with fb := Framebuffer.clear } : State).advance

/-- DRW Vx, Vy, nibble: every sprite row is read before a pixel or VF is written (R204, R205). -/
def execDrwVxVyN (x y n : Nibble) (s : State) : Result :=
  match s.mem.loadBytes (s.effectiveAddress 0) n.toNat with
  | .error a => raiseFatal .memRange (infoOfAddress a) s
  | .ok rows =>
    let drawn := drawSprite s.fb (s.reg x) (s.reg y) rows
    complete (({ s with fb := drawn.fb } : State).setReg vF (flagByte drawn.collision)).advance

end Sys2Proof.Machine
end

