-- ==== Sys2Proof/Machine/IndexMemory.lean ====
section
/-! DEFINITION. Index arithmetic, font address, BCD, block store and load (spec/46_index_memory.md R235 to R240). No
instruction changes I by an access (R240). -/

namespace Sys2Proof.Machine

/-- ADD I, Vx: VF is the flag of the exact sum, also where X = 0xF (R235). -/
def execAddIVx (x : Nibble) (s : State) : Result :=
  complete ((s.setReg vF (flagByte (indexOverflowOf s.i (s.reg x)))).setI (s.i + (s.reg x).setWidth 16)).advance

/-- LD F, Vx (R236). -/
def execLdFVx (x : Nibble) (s : State) : Result := complete (s.setI (glyphAddress (s.reg x))).advance

/-- LD B, Vx (R237). -/
def execLdBVx (x : Nibble) (s : State) : Result :=
  match s.mem.storeBytes (s.effectiveAddress 0) (bcdDigits (s.reg x)) with
  | .error a => raiseFatal .memRange (infoOfAddress a) s
  | .ok m => complete ({ s with mem := m } : State).advance

/-- LD [I], Vx (R238). -/
def execLdMemIVx (x : Nibble) (s : State) : Result :=
  match s.mem.storeBytes (s.effectiveAddress 0) (s.regsUpTo x) with
  | .error a => raiseFatal .memRange (infoOfAddress a) s
  | .ok m => complete ({ s with mem := m } : State).advance

/-- LD Vx, [I] (R239). -/
def execLdVxMemI (x : Nibble) (s : State) : Result :=
  match s.mem.loadBytes (s.effectiveAddress 0) (x.toNat + 1) with
  | .error a => raiseFatal .memRange (infoOfAddress a) s
  | .ok bytes => complete (s.setRegs bytes).advance

end Sys2Proof.Machine
end

