-- ==== Sys2Proof/Machine/LoadImm.lean ====
section
/-! DEFINITION. Immediate loads, immediate add, index load and random (spec/42_load_imm.md R170 to R174). -/

namespace Sys2Proof.Machine

/-- LD Vx, byte (R170). -/
def execLdVxByte (x : Nibble) (nn : Byte) (s : State) : Result := complete (s.setReg x nn).advance

/-- ADD Vx, byte: mod 256, no flag (R171). -/
def execAddVxByte (x : Nibble) (nn : Byte) (s : State) : Result := complete (s.setReg x (s.reg x + nn)).advance

/-- LD I, addr (R172). -/
def execLdIAddr (nnn : Addr12) (s : State) : Result := complete (s.setI (absolute nnn)).advance

/-- RND Vx, byte (R173). -/
def execRndVxByte (x : Nibble) (nn : Byte) (s : State) : Result := complete (s.setReg x (s.inp.rnd &&& nn)).advance

end Sys2Proof.Machine
end

