-- ==== Sys2Proof/Machine/TimerKey.lean ====
section
/-! DEFINITION. Timer and key-wait instructions (spec/45_timer_key.md R220 to R224). The tick is the step's
(`State.tick`), after these. -/

namespace Sys2Proof.Machine

/-- LD Vx, DT: DT before this cycle's tick (R220). -/
def execLdVxDt (x : Nibble) (s : State) : Result := complete (s.setReg x s.dt).advance

/-- LD Vx, K: the least pressed key (R221), or the wait (R222). -/
def execLdVxK (x : Nibble) (s : State) : Result :=
  match lowestKey s.inp.keys with
  | none => waitForKey s
  | some k => complete (s.setReg x (BitVec.ofNat 8 k)).advance

/-- LD DT, Vx (R223). -/
def execLdDtVx (x : Nibble) (s : State) : Result := complete ({ s with dt := s.reg x } : State).advance

/-- LD ST, Vx (R224). -/
def execLdStVx (x : Nibble) (s : State) : Result := complete ({ s with st := s.reg x } : State).advance

end Sys2Proof.Machine
end

