-- ==== Sys2Proof/Machine/Dispatch.lean ====
section
/-! DEFINITION. Step 4 of the cycle: each instruction's meaning (spec/40_cycle.md R116). -/

namespace Sys2Proof.Machine

def exec (i : Instr) (s : State) : Host.Outcome State Fault Refusal :=
  match i with
  | .cls _ _ => Sys2Proof.Machine.execCls s
  | .ret x y => Sys2Proof.Machine.execRet x y s
  | .jpAddr nnn => Sys2Proof.Machine.execJpAddr nnn s
  | .callAddr nnn => Sys2Proof.Machine.execCallAddr nnn s
  | .seVxByte x nn => Sys2Proof.Machine.execSeVxByte x nn s
  | .sneVxByte x nn => Sys2Proof.Machine.execSneVxByte x nn s
  | .seVxVy x y _ => Sys2Proof.Machine.execSeVxVy x y s
  | .ldVxByte x nn => Sys2Proof.Machine.execLdVxByte x nn s
  | .addVxByte x nn => Sys2Proof.Machine.execAddVxByte x nn s
  | .ldVxVy x y => Sys2Proof.Machine.execLdVxVy x y s
  | .orVxVy x y => Sys2Proof.Machine.execOrVxVy x y s
  | .andVxVy x y => Sys2Proof.Machine.execAndVxVy x y s
  | .xorVxVy x y => Sys2Proof.Machine.execXorVxVy x y s
  | .addVxVy x y => Sys2Proof.Machine.execAddVxVy x y s
  | .subVxVy x y => Sys2Proof.Machine.execSubVxVy x y s
  | .shrVxVy x _ => Sys2Proof.Machine.execShrVxVy x s
  | .subnVxVy x y => Sys2Proof.Machine.execSubnVxVy x y s
  | .shlVxVy x _ => Sys2Proof.Machine.execShlVxVy x s
  | .sneVxVy x y _ => Sys2Proof.Machine.execSneVxVy x y s
  | .ldIAddr nnn => Sys2Proof.Machine.execLdIAddr nnn s
  | .jpV0Addr nnn => Sys2Proof.Machine.execJpV0Addr nnn s
  | .rndVxByte x nn => Sys2Proof.Machine.execRndVxByte x nn s
  | .drwVxVyN x y n => Sys2Proof.Machine.execDrwVxVyN x y n s
  | .skpVx x _ => Sys2Proof.Machine.execSkpVx x s
  | .sknpVx x _ => Sys2Proof.Machine.execSknpVx x s
  | .ldVxDt x _ => Sys2Proof.Machine.execLdVxDt x s
  | .ldVxK x _ => Sys2Proof.Machine.execLdVxK x s
  | .ldDtVx x => Sys2Proof.Machine.execLdDtVx x s
  | .ldStVx x _ => Sys2Proof.Machine.execLdStVx x s
  | .addIVx x _ => Sys2Proof.Machine.execAddIVx x s
  | .ldFVx x _ => Sys2Proof.Machine.execLdFVx x s
  | .ldBVx x _ => Sys2Proof.Machine.execLdBVx x s
  | .ldMemIVx x => Sys2Proof.Machine.execLdMemIVx x s
  | .ldVxMemI x => Sys2Proof.Machine.execLdVxMemI x s

end Sys2Proof.Machine
end

