-- ==== Sys2Proof/Machine/Cycle.lean ====
section
/-! DEFINITION. Steps 1 to 4 of the cycle (spec/40_cycle.md R110): fetch, decode and dispatch, execute. -/

namespace Sys2Proof.Machine

/-- The state and STATUS that steps 1 to 4 leave (R110, R112 to R119). -/
def executeCycle (s : State) : Result :=
  match s.fetch with
  | none => raiseFetch s
  | some op =>
    match decode op with
    | .error _ => raiseDecode op s
    | .ok i => exec i s

end Sys2Proof.Machine
end

