-- ==== Sys2Proof/Machine/Step.lean ====
section
/-! DEFINITION. One cycle of the block (spec/40_cycle.md R110): steps 1 to 4, and the end of the cycle on every
outcome. -/

namespace Sys2Proof.Machine

/-- One cycle (R110). -/
def step (s : State) : Host.Outcome State Fault Refusal := finish (executeCycle s)

/-- The state whose next cycle fetches the opcode-table word `w` (log 16, log 20). -/
def State.withFetchWord (s : State) (nbits w : Nat) : State := s.placeOpcode (tableWord nbits w)

end Sys2Proof.Machine
end

