-- ==== Sys2Proof/Safety.lean ====
section
/-! DEFINITION. The terms the statements are written in: the pieces of state and what it means to keep one, what each
instruction may write (spec/40_cycle.md R120), the invariant of the block, and what a legal STATUS is. -/

namespace Sys2Proof.Machine

/-- The pieces of the block's state (R20), and its inputs (R21). -/
inductive Part where
  | regs
  | index
  | pc
  | stack
  | dt
  | st
  | fb
  | mem
  | status
  | inputs
  deriving DecidableEq, Repr

/-- A piece of state is the same in two states: registers and memory as they read, SP and every stack entry, used or
not. -/
def Part.kept (s t : State) : Part → Prop
  | .regs => ∀ r, t.reg r = s.reg r
  | .index => t.i = s.i
  | .pc => t.pc = s.pc
  | .stack => t.sp = s.sp ∧ ∀ k, t.stackAt k = s.stackAt k
  | .dt => t.dt = s.dt
  | .st => t.st = s.st
  | .fb => t.fb = s.fb
  | .mem => ∀ a, t.mem.read a = s.mem.read a
  | .status => t.status = s.status
  | .inputs => t.inp = s.inp ∧ t.pending = s.pending ∧ t.cycle = s.cycle

/-- Every piece of state but the listed ones is kept. -/
def frame (written : List Part) (s t : State) : Prop := ∀ p, p ∉ written → p.kept s t

/-- Every register but the listed ones is kept. -/
def onlyRegs (written : List Nibble) (s t : State) : Prop := ∀ r, r ∉ written → t.reg r = s.reg r

/-- Every byte of memory outside `base` to `base + n - 1` is kept. -/
def memKeptOutside (base n : Nat) (s t : State) : Prop :=
  ∀ a, ¬ (base ≤ a ∧ a < base + n) → t.mem.read a = s.mem.read a

/-- The instruction, in a state it began in, ends completed (R117) in `t`. -/
def completesIn (i : Instr) (s t : State) : Prop := exec i s = .next t ∧ t.status.status = .completed

/-- STATUS is this status, cause and info (R37). -/
def State.reports (t : State) (status : CycleStatus) (cause : Cause) (info : BitVec 17) : Prop :=
  t.status.status = status ∧ t.status.cause = cause ∧ t.status.info = info

/-- The instruction the coming cycle fetches and dispatches, if any (R112, R115). -/
def State.nextInstr (s : State) : Option Instr :=
  match s.fetch with
  | none => none
  | some op => (decode op).toOption

end Sys2Proof.Machine

namespace Sys2Proof.Instr

open Sys2Proof.Machine

/-- The pieces of state the instruction's rule writes (R120). Each reports in STATUS. -/
def writes : Instr → List Part
  | .cls _ _ => [.fb, .pc, .status]
  | .ret _ _ => [.stack, .pc, .status]
  | .jpAddr _ => [.pc, .status]
  | .callAddr _ => [.stack, .pc, .status]
  | .seVxByte _ _ => [.pc, .status]
  | .sneVxByte _ _ => [.pc, .status]
  | .seVxVy _ _ _ => [.pc, .status]
  | .ldVxByte _ _ => [.regs, .pc, .status]
  | .addVxByte _ _ => [.regs, .pc, .status]
  | .ldVxVy _ _ => [.regs, .pc, .status]
  | .orVxVy _ _ => [.regs, .pc, .status]
  | .andVxVy _ _ => [.regs, .pc, .status]
  | .xorVxVy _ _ => [.regs, .pc, .status]
  | .addVxVy _ _ => [.regs, .pc, .status]
  | .subVxVy _ _ => [.regs, .pc, .status]
  | .shrVxVy _ _ => [.regs, .pc, .status]
  | .subnVxVy _ _ => [.regs, .pc, .status]
  | .shlVxVy _ _ => [.regs, .pc, .status]
  | .sneVxVy _ _ _ => [.pc, .status]
  | .ldIAddr _ => [.index, .pc, .status]
  | .jpV0Addr _ => [.pc, .status]
  | .rndVxByte _ _ => [.regs, .pc, .status]
  | .drwVxVyN _ _ _ => [.fb, .regs, .pc, .status]
  | .skpVx _ _ => [.pc, .status]
  | .sknpVx _ _ => [.pc, .status]
  | .ldVxDt _ _ => [.regs, .pc, .status]
  | .ldVxK _ _ => [.regs, .pc, .status]
  | .ldDtVx _ => [.dt, .pc, .status]
  | .ldStVx _ _ => [.st, .pc, .status]
  | .addIVx _ _ => [.index, .regs, .pc, .status]
  | .ldFVx _ _ => [.index, .pc, .status]
  | .ldBVx _ _ => [.mem, .pc, .status]
  | .ldMemIVx _ => [.mem, .pc, .status]
  | .ldVxMemI _ => [.regs, .pc, .status]

/-- V[0] to V[x]. -/
def regsThrough (x : Nibble) : List Nibble := (List.range (x.toNat + 1)).map (BitVec.ofNat 4)

/-- The registers the instruction may write: V[X], VF as a flag (R39), V[0] to V[X] (R24). -/
def writtenRegs : Instr → List Nibble
  | .cls _ _ => []
  | .ret _ _ => []
  | .jpAddr _ => []
  | .callAddr _ => []
  | .seVxByte _ _ => []
  | .sneVxByte _ _ => []
  | .seVxVy _ _ _ => []
  | .ldVxByte x _ => [x]
  | .addVxByte x _ => [x]
  | .ldVxVy x _ => [x]
  | .orVxVy x _ => [x]
  | .andVxVy x _ => [x]
  | .xorVxVy x _ => [x]
  | .addVxVy x _ => [x, vF]
  | .subVxVy x _ => [x, vF]
  | .shrVxVy x _ => [x, vF]
  | .subnVxVy x _ => [x, vF]
  | .shlVxVy x _ => [x, vF]
  | .sneVxVy _ _ _ => []
  | .ldIAddr _ => []
  | .jpV0Addr _ => []
  | .rndVxByte x _ => [x]
  | .drwVxVyN _ _ _ => [vF]
  | .skpVx _ _ => []
  | .sknpVx _ _ => []
  | .ldVxDt x _ => [x]
  | .ldVxK x _ => [x]
  | .ldDtVx _ => []
  | .ldStVx _ _ => []
  | .addIVx _ _ => [vF]
  | .ldFVx _ _ => []
  | .ldBVx _ _ => []
  | .ldMemIVx _ => []
  | .ldVxMemI x => regsThrough x

/-- How many bytes the instruction stores, from the address I on (R62). -/
def storedBytes : Instr → Nat
  | .ldBVx _ _ => 3
  | .ldMemIVx x => x.toNat + 1
  | _ => 0

/-- How many bytes of MEM, from the address I on, the instruction reads or writes as data (R62). -/
def accessedBytes : Instr → Nat
  | .drwVxVyN _ _ n => n.toNat
  | .ldBVx _ _ => 3
  | .ldMemIVx x => x.toNat + 1
  | .ldVxMemI x => x.toNat + 1
  | _ => 0

/-- The instruction reads I (R29). -/
def readsIndex : Instr → Bool
  | .drwVxVyN _ _ _ => true
  | .addIVx _ _ => true
  | .ldBVx _ _ => true
  | .ldMemIVx _ => true
  | .ldVxMemI _ => true
  | _ => false

/-- The instruction writes I (R29). -/
def writesIndex : Instr → Bool
  | .ldIAddr _ => true
  | .addIVx _ _ => true
  | .ldFVx _ _ => true
  | _ => false

/-- The instruction reads the key snapshot (R148, R149, R221). -/
def readsKeys : Instr → Bool
  | .skpVx _ _ => true
  | .sknpVx _ _ => true
  | .ldVxK _ _ => true
  | _ => false

/-- The instruction reads the random byte (R174). -/
def readsRandom : Instr → Bool
  | .rndVxByte _ _ => true
  | _ => false

/-- Where PC goes when the instruction completes, pc0 being the PC of `s`: the target of a transfer, pc0 + 4 on a taken
skip, else pc0 + 2 (R26, R140 to R149). RET's target is the newest stack entry, of a stack that is not empty. -/
def nextPc (i : Instr) (s : State) : Half :=
  match i with
  | .ret _ _ => if h : 0 < s.sp.val then s.stackAt ⟨s.sp.val - 1, by have := s.sp.isLt; omega⟩ else s.pc
  | .jpAddr nnn => nnn.setWidth 16
  | .callAddr nnn => nnn.setWidth 16
  | .jpV0Addr nnn => nnn.setWidth 16 + (s.reg 0x0#4).setWidth 16
  | .seVxByte x nn => if s.reg x = nn then s.pc + 4#16 else s.pc + 2#16
  | .sneVxByte x nn => if s.reg x = nn then s.pc + 2#16 else s.pc + 4#16
  | .seVxVy x y _ => if s.reg x = s.reg y then s.pc + 4#16 else s.pc + 2#16
  | .sneVxVy x y _ => if s.reg x = s.reg y then s.pc + 2#16 else s.pc + 4#16
  | .skpVx x _ => if s.inp.keys.getLsbD ((s.reg x).toNat % 16) then s.pc + 4#16 else s.pc + 2#16
  | .sknpVx x _ => if s.inp.keys.getLsbD ((s.reg x).toNat % 16) then s.pc + 2#16 else s.pc + 4#16
  | _ => s.pc + 2#16

end Sys2Proof.Instr

namespace Sys2Proof.Machine

/-- What every step keeps: memory in its canonical form, PC no further than the largest target (R27, R147), and every
stack entry in use an address that CALL pushes (R142). -/
structure State.Inv (s : State) : Prop where
  memCanonical : s.mem.wf = true
  pcBounded : s.pc.toNat ≤ 0x10FE
  returnBounded : ∀ k : Fin 16, k.val < s.sp.val → (s.stackAt k).toNat ≤ 0x1000

/-- STATUS pairs a status with a cause as R260's table does, and info is 0 where there is no error (R263). -/
def Status.legal (st : Status) : Prop :=
  match st.status with
  | .completed => st.cause = .none ∧ st.info = 0#17
  | .waitingForKey => st.cause = .none ∧ st.info = 0#17
  | .decodeError => st.cause = .decode
  | .fatalError =>
    st.cause = .stackOverflow ∨ st.cause = .stackUnderflow ∨ st.cause = .memRange ∨ st.cause = .fetchRange

/-- `k` cycles in a row, each with tick_en = 1 and none of them an FX15, lead from the first state to the second. -/
inductive TickedCycles : Nat → State → State → Prop where
  | none (s : State) : TickedCycles 0 s s
  | cycle {k : Nat} {s t u : State} (ticks : s.inp.tickEn = true) (keepsTimer : ∀ x, s.nextInstr ≠ some (.ldDtVx x))
      (runs : step s = .next t) (rest : TickedCycles k t u) : TickedCycles (k + 1) s u

/-- The sprite bit that DRW at position (V[X], V[Y]) puts on the pixel (px, py), row r of the sprite being `rows[r]`
and its column c the bit 7 - c: the bit of the one column c below 8 and row r with px = (x0 + c) mod 64 and
py = (y0 + r) mod 32, and 0 where there is none (R201, R204). -/
def spriteBit (rows : List Byte) (vx vy : Byte) (px py : Nat) : Bool :=
  (List.range rows.length).any fun r => (List.range 8).any fun c =>
    decide (px = (vx.toNat % 64 + c) % 64) && decide (py = (vy.toNat % 32 + r) % 32)
      && (rows.getD r 0x00#8).getLsbD (7 - c)

end Sys2Proof.Machine
end

