-- ==== Sys2Proof/Certificates/Slice0/Obligations.lean ====
section
/-! DEFINITION. The statements for the provers. Each docstring names the rule it formalises; a clause that rests on a
decision the spec marks as its own (D<n>) or on the model's choice (log <n>) says so. -/

open Sys2Proof Sys2Proof.Machine

/-! ## Encoding and decoding -/

/-- Decoding the encoding of an instruction gives it back, every operand and every ignored nibble with it, for canonical
forms and aliases alike (30_encoding.md R92, R95, R96; what an alias is rests on D29, log 14). -/
def Obligations.DecodeOfEncodeIsTheInstruction : Prop := ∀ i : Instr, decode (encode i) = .ok i

/-- A word that decodes has one meaning: encoding what it decodes to gives the word back (R92, R95; D29, log 14). -/
def Obligations.EncodeOfDecodeIsTheWord : Prop := ∀ (op : Half) (i : Instr), decode op = .ok i → encode i = op

/-- R92: composing the fields of an opcode recovers it, in its three ways. -/
def Obligations.FieldsRecomposeTheOpcode : Prop :=
  ∀ op : Half,
    ((fieldC op).setWidth 16 <<< 12 ||| (fieldX op).setWidth 16 <<< 8 ||| (fieldY op).setWidth 16 <<< 4
      ||| (fieldN op).setWidth 16) = op ∧
    ((fieldC op).setWidth 16 <<< 12 ||| (fieldNNN op).setWidth 16) = op ∧
    ((op &&& 0xFF00#16) ||| (fieldNN op).setWidth 16) = op

/-- The decode-error space is the five parts R97 lists, and nothing else (R95, R97; D29, log 14). -/
def Obligations.DecodeErrorSpaceIsExactlyTheListedOpcodes : Prop :=
  ∀ op : Half, (∃ e, decode op = .error e) ↔
    ((fieldC op = 0x0#4 ∧ fieldN op ∉ [0x0#4, 0xE#4]) ∨
     (fieldC op = 0x8#4 ∧ fieldN op ∈ [0x8#4, 0x9#4, 0xA#4, 0xB#4, 0xC#4, 0xD#4, 0xF#4]) ∨
     (fieldC op = 0xE#4 ∧ fieldN op ∉ [0x1#4, 0xE#4]) ∨
     (fieldC op = 0xF#4 ∧ fieldN op ∈ [0x0#4, 0x1#4, 0x2#4, 0x4#4, 0x6#4, 0xB#4, 0xC#4, 0xD#4, 0xF#4]) ∨
     (fieldC op = 0xF#4 ∧ fieldN op = 0x5#4 ∧ fieldY op ∉ [0x1#4, 0x5#4, 0x6#4]))

/-- Words of the spec (95_test_vectors.md S1, F4, F7, F20, A6, D5, F23, T4, M14, M18, M22; F3 is an alias, D29) decode to
the instructions they stand for. -/
def Obligations.SpecWordsDecodeAsTheirInstructions : Prop :=
  decode 0x6A07#16 = .ok (.ldVxByte 0xA#4 0x07#8) ∧ decode 0x1234#16 = .ok (.jpAddr 0x234#12) ∧
  decode 0x2210#16 = .ok (.callAddr 0x210#12) ∧ decode 0xB300#16 = .ok (.jpV0Addr 0x300#12) ∧
  decode 0x8124#16 = .ok (.addVxVy 0x1#4 0x2#4) ∧ decode 0xD011#16 = .ok (.drwVxVyN 0x0#4 0x1#4 0x1#4) ∧
  decode 0xE59E#16 = .ok (.skpVx 0x5#4 0x9#4) ∧ decode 0xF50A#16 = .ok (.ldVxK 0x5#4 0x0#4) ∧
  decode 0xFA33#16 = .ok (.ldBVx 0xA#4 0x3#4) ∧ decode 0xF155#16 = .ok (.ldMemIVx 0x1#4) ∧
  decode 0xF265#16 = .ok (.ldVxMemI 0x2#4) ∧ decode 0x000E#16 = .ok (.ret 0x0#4 0x0#4)

/-- An alias runs as the canonical form with the same operands (R96; D29, log 14), but for the opcode that RET reports
on an empty stack, which is its own (R263, D11). -/
def Obligations.AnAliasRunsAsItsCanonicalForm : Prop :=
  ∀ (i : Instr) (s : State),
    ((∀ gx gy, i ≠ .ret gx gy) ∨ 0 < s.sp.val → exec i s = exec i.canonical s) ∧
    i.canonical.wellFormed = true

/-! ## The cycle -/

/-- A step runs exactly the instruction at PC and then ends the cycle: where the two bytes at PC (big-endian) decode to
`i`, a step from `s` is `exec i s` with the tick and the host's next inputs after it (R110, R112, R115, R66). The
instruction may be any form the decoder gives, an alias too (D29). -/
def Obligations.StepRunsTheDecodedInstruction : Prop :=
  ∀ (s : State) (i : Instr), s.pc.toNat + 1 < 0x1000 →
    decode (s.mem.read s.pc.toNat ++ s.mem.read (s.pc.toNat + 1)) = .ok i →
    ∃ t, exec i s = .next t ∧ step s = .next t.endCycle

/-- R123: with tick_en = 1 the end of a cycle takes DT down by 1 while it is above 0, and without it leaves DT. -/
def Obligations.TickCountsTheDelayTimerDown : Prop :=
  ∀ s : State, (s.inp.tickEn = true → s.endCycle.dt.toNat = s.dt.toNat - 1) ∧
    (s.inp.tickEn = false → s.endCycle.dt = s.dt)

/-- R124: with tick_en = 1 the end of a cycle takes ST down by 1 while it is above 0, and beeps exactly where ST was 1;
no cycle beeps but by a tick that leaves ST at 0; FX18 of 0 does not beep. -/
def Obligations.TickCountsTheSoundTimerDownAndBeepsFromOne : Prop :=
  (∀ s : State,
    (s.inp.tickEn = true → s.endCycle.st.toNat = s.st.toNat - 1 ∧ (s.endCycle.status.beep = true ↔ s.st = 0x01#8)) ∧
    (s.inp.tickEn = false → s.endCycle.st = s.st ∧ s.endCycle.status.beep = false)) ∧
  (∀ s t : State, step s = .next t → t.status.beep = true → s.inp.tickEn = true ∧ t.st = 0x00#8) ∧
  (∀ x g s t, exec (.ldStVx x g) s = .next t → s.reg x = 0x00#8 → t.endCycle.status.beep = false)

/-- The end of a cycle changes DT, ST, STATUS.beep and the inputs, and nothing else (R120, R122, R126). The inputs it
leaves are the first the host scheduled, where it scheduled any (R41; log 2). -/
def Obligations.EndOfCycleKeepsEverythingButTimersBeepAndInputs : Prop :=
  ∀ s : State, frame [.dt, .st, .status, .inputs] s s.endCycle ∧
    s.endCycle.reports s.status.status s.status.cause s.status.info ∧
    ∀ next rest, s.pending = next :: rest → s.endCycle.inp = next ∧ s.endCycle.pending = rest

/-- The tick runs on every cycle, whatever its outcome: a cycle whose instruction does not write a timer counts both
down from where they stood when tick_en = 1, and beeps exactly then and where ST was 1 (R122, R125; the cycles that do
not complete rest on D8, log 11). -/
def Obligations.EveryCycleTicksBothTimers : Prop :=
  ∀ s t : State, step s = .next t →
    (∀ x, s.nextInstr ≠ some (.ldDtVx x)) → (∀ x g, s.nextInstr ≠ some (.ldStVx x g)) →
    t.dt.toNat = (if s.inp.tickEn then s.dt.toNat - 1 else s.dt.toNat) ∧
    t.st.toNat = (if s.inp.tickEn then s.st.toNat - 1 else s.st.toNat) ∧
    (t.status.beep = true ↔ s.inp.tickEn = true ∧ s.st = 0x01#8)

/-- A cycle never blocks and the block never halts: every step from every state answers a next state (R128, R266;
that errors are next states rests on D9 and D10, log 12). -/
def Obligations.EveryStepAnswersANextState : Prop := ∀ s : State, ∃ t, step s = .next t

/-- A decode-error cycle reports DECODE with the opcode, puts PC at pc0 + 2, and changes nothing else but the tick and
the inputs (R118; the STATUS fields rest on D11, log 13, the tick on D8, log 11). -/
def Obligations.DecodeErrorSkipsTheOpcodeAndChangesNothingElse : Prop :=
  ∀ (s : State) (op : Half) (e : DecodeReject), s.fetch = some op → decode op = .error e →
    ∃ t, step s = .next t ∧ t.pc = s.pc + 2#16 ∧ t.reports .decodeError .decode (op.setWidth 17) ∧
      frame [.pc, .dt, .st, .status, .inputs] s t

/-- A fetch at 0xFFF or above reports FETCH_RANGE with pc0 and changes nothing but the tick and the inputs (R113; D9,
D10, D11, log 12, log 13). -/
def Obligations.FetchBeyondMemoryIsAFatalErrorWithPcKept : Prop :=
  ∀ s : State, 0xFFF ≤ s.pc.toNat →
    ∃ t, step s = .next t ∧ t.reports .fatalError .fetchRange (s.pc.setWidth 17) ∧
      frame [.dt, .st, .status, .inputs] s t

/-- A cycle that reports FATAL_ERROR or WAITING_FOR_KEY keeps every register, I, PC, the stack, FB and MEM (R119, R222,
R266; D9, log 12). -/
def Obligations.FatalAndWaitingCyclesKeepTheState : Prop :=
  ∀ s t : State, step s = .next t →
    t.status.status = .fatalError ∨ t.status.status = .waitingForKey → frame [.dt, .st, .status, .inputs] s t

/-- After a fatal error the next cycle reports the same error again (R267; D9, D26, log 12). -/
def Obligations.AFatalErrorRepeatsForEver : Prop :=
  ∀ s t u : State, step s = .next t → t.status.status = .fatalError → step t = .next u →
    u.reports .fatalError t.status.cause t.status.info

/-- Each error cause is reported in exactly the cycles R262 lists, with the information R263 gives it (D9 to D12, log 12,
log 13). -/
def Obligations.EachErrorCauseHasExactlyItsCondition : Prop :=
  ∀ s t : State, step s = .next t →
    (t.status.cause = .fetchRange ↔ 0xFFF ≤ s.pc.toNat) ∧
    (t.status.cause = .decode ↔ ∃ op e, s.fetch = some op ∧ decode op = .error e) ∧
    (t.status.cause = .stackOverflow ↔ ∃ nnn, s.nextInstr = some (.callAddr nnn) ∧ s.sp.val = 16) ∧
    (t.status.cause = .stackUnderflow ↔ ∃ gx gy, s.nextInstr = some (.ret gx gy) ∧ s.sp.val = 0) ∧
    (t.status.cause = .memRange ↔
      ∃ i, s.nextInstr = some i ∧ 0 < i.accessedBytes ∧ 0x1000 < s.i.toNat + i.accessedBytes) ∧
    (t.status.cause = .fetchRange → t.status.info.toNat = s.pc.toNat) ∧
    (t.status.cause = .memRange → t.status.info.toNat = max s.i.toNat 0x1000) ∧
    (t.status.cause = .decode ∨ t.status.cause = .stackOverflow ∨ t.status.cause = .stackUnderflow →
      ∃ op, s.fetch = some op ∧ t.status.info.toNat = op.toNat) ∧
    (t.status.cause = .none → t.status.info = 0#17)

/-- Every cycle ends with a STATUS of R260's table (D10, D11, log 13). -/
def Obligations.EveryCycleReportsALegalStatus : Prop := ∀ s t : State, step s = .next t → t.status.legal

/-- The 25 bits of STATUS: status [1:0], cause [4:2], info [21:5], beep [22], reserved [24:23] always 0 (R37; the layout
and the codes rest on D11, log 13). -/
def Obligations.StatusWordHasItsFields : Prop :=
  ∀ st : Status,
    st.word.extractLsb' 0 2 = st.status.code ∧ st.word.extractLsb' 2 3 = st.cause.code ∧
    st.word.extractLsb' 5 17 = st.info ∧ st.word.getLsbD 22 = st.beep ∧ st.word.extractLsb' 23 2 = 0#2 ∧
    st.cause.code.toNat ≤ 5

/-- How PC changes in one cycle: to `Instr.nextPc` (by 2, by 4 on a taken skip, or to the target) where an instruction
completes, by 2 on a decode error, and not at all on a fatal error or a wait (R26; that every fatal error keeps PC rests
on D9, log 12). -/
def Obligations.PcMovesByTwoOrFourOrToTheTarget : Prop :=
  ∀ s t : State, step s = .next t →
    (t.status.status = .completed → ∃ i, s.nextInstr = some i ∧ t.pc = i.nextPc s) ∧
    (t.status.status = .decodeError → t.pc = s.pc + 2#16) ∧
    (t.status.status = .fatalError ∨ t.status.status = .waitingForKey → t.pc = s.pc)

/-- Every step from a state that meets the invariant leaves one that meets it: MEM canonical (log 6), PC at most 0x10FE
so that it never wraps (R27; D17, log 10), every return address in use at most 0x1000 (R142). -/
def Obligations.EveryStepKeepsTheInvariant : Prop := ∀ s t : State, s.Inv → step s = .next t → t.Inv

/-- The invariant holds after reset (R45; D3, D5, D6, log 5). -/
def Obligations.ResetMeetsTheInvariant : Prop := State.reset.Inv

/-! ## Whole-machine rules over the instructions -/

/-- R120: an instruction changes only the state its rule writes; its stores stay in its own bytes. -/
def Obligations.EveryInstructionChangesOnlyWhatItsRuleWrites : Prop :=
  ∀ (i : Instr) (s t : State), exec i s = .next t →
    frame i.writes s t ∧ onlyRegs i.writtenRegs s t ∧ memKeptOutside (s.effectiveAddress 0) i.storedBytes s t

/-- R29: ANNN, FX1E and FX29 write I and no other instruction does; DXYN, FX1E, FX33, FX55 and FX65 read it: what any
other instruction does is the same for every value of I. -/
def Obligations.IndexIsReadAndWrittenOnlyByTheListedInstructions : Prop :=
  ∀ (i : Instr) (s t : State), exec i s = .next t →
    (i.writesIndex = false → t.i = s.i) ∧
    (i.readsIndex = false → ∀ a, exec i (s.setI a) = .next (if i.writesIndex then t else t.setI a))

/-- Only SKP, SKNP and FX0A read the key snapshot and only CXNN reads the random byte; no instruction reads tick_en: what
an instruction does is the same for all inputs that agree where it reads them (R46, R111, R174; the ports rest on D7 and
D27, log 2). -/
def Obligations.InputsAreReadOnlyByTheirInstructions : Prop :=
  ∀ (i : Instr) (s t : State) (other : Inputs), exec i s = .next t →
    (i.readsKeys = true → other.keys = s.inp.keys) → (i.readsRandom = true → other.rnd = s.inp.rnd) →
    exec i { s with inp := other } = .next { t with inp := other }

/-! ## Control flow -/

/-- RET puts PC at the newest return address and takes SP down by 1, the entries kept; on an empty stack it is a
STACK_UNDERFLOW with nothing changed (R140; the stack's layout rests on D6, log 17, and what the error reports on D10
and D11, log 12, log 13). -/
def Obligations.ReturnPopsTheNewestAddress : Prop :=
  ∀ (gx gy : Nibble) (s : State),
    (∀ k : Fin 16, s.sp.val = k.val + 1 →
      ∃ t, completesIn (.ret gx gy) s t ∧ t.pc = s.stackAt k ∧ t.sp.val = k.val ∧
        (∀ j, t.stackAt j = s.stackAt j) ∧ frame [.stack, .pc, .status] s t) ∧
    (s.sp.val = 0 → ∃ t, exec (.ret gx gy) s = .next t ∧
      t.reports .fatalError .stackUnderflow ((encode (.ret gx gy)).setWidth 17) ∧ frame [.status] s t)

/-- R141: JP puts PC at NNN. -/
def Obligations.JumpPutsPcAtTheAddress : Prop :=
  ∀ (nnn : Addr12) (s : State),
    ∃ t, completesIn (.jpAddr nnn) s t ∧ t.pc = nnn.setWidth 16 ∧ frame [.pc, .status] s t

/-- CALL pushes pc0 + 2 and puts PC at NNN; with 16 entries in use it is a STACK_OVERFLOW with nothing changed (R142; the
stack's layout rests on D6, log 17, what the error keeps and reports on D9 to D11, log 12, log 13). -/
def Obligations.CallPushesTheReturnAddress : Prop :=
  ∀ (nnn : Addr12) (s : State),
    (∀ k : Fin 16, s.sp.val = k.val →
      ∃ t, completesIn (.callAddr nnn) s t ∧ t.stackAt k = s.pc + 2#16 ∧ (∀ j, j ≠ k → t.stackAt j = s.stackAt j) ∧
        t.sp.val = k.val + 1 ∧ t.pc = nnn.setWidth 16 ∧ frame [.stack, .pc, .status] s t) ∧
    (s.sp.val = 16 → ∃ t, exec (.callAddr nnn) s = .next t ∧
      t.reports .fatalError .stackOverflow ((encode (.callAddr nnn)).setWidth 17) ∧ frame [.status] s t)

/-- R143 to R146: the four compares, each with PC at pc0 + 4 where its condition holds and at pc0 + 2 where not. -/
def Obligations.CompareSkipsMovePcByFourOrTwo : Prop :=
  ∀ (x y gn : Nibble) (nn : Byte) (s : State),
    (∃ t, completesIn (.seVxByte x nn) s t ∧ frame [.pc, .status] s t ∧
      (s.reg x = nn → t.pc = s.pc + 4#16) ∧ (s.reg x ≠ nn → t.pc = s.pc + 2#16)) ∧
    (∃ t, completesIn (.sneVxByte x nn) s t ∧ frame [.pc, .status] s t ∧
      (s.reg x ≠ nn → t.pc = s.pc + 4#16) ∧ (s.reg x = nn → t.pc = s.pc + 2#16)) ∧
    (∃ t, completesIn (.seVxVy x y gn) s t ∧ frame [.pc, .status] s t ∧
      (s.reg x = s.reg y → t.pc = s.pc + 4#16) ∧ (s.reg x ≠ s.reg y → t.pc = s.pc + 2#16)) ∧
    (∃ t, completesIn (.sneVxVy x y gn) s t ∧ frame [.pc, .status] s t ∧
      (s.reg x ≠ s.reg y → t.pc = s.pc + 4#16) ∧ (s.reg x = s.reg y → t.pc = s.pc + 2#16))

/-- JP V0 puts PC at the exact sum NNN + V0, not truncated (R147; above 0xFFF this rests on D17, log 10). -/
def Obligations.JumpWithOffsetAddsV0Exactly : Prop :=
  ∀ (nnn : Addr12) (s : State),
    ∃ t, completesIn (.jpV0Addr nnn) s t ∧ t.pc.toNat = nnn.toNat + (s.reg 0x0#4).toNat ∧ frame [.pc, .status] s t

/-- SKP and SKNP test the key V[X] & 0xF of the snapshot (R148, R149; a V[X] above 0xF rests on D15, log 9). -/
def Obligations.KeySkipsTestTheSnapshot : Prop :=
  ∀ (x gy : Nibble) (s : State),
    (∃ t, completesIn (.skpVx x gy) s t ∧ frame [.pc, .status] s t ∧
      (s.inp.keys.getLsbD ((s.reg x).toNat % 16) = true → t.pc = s.pc + 4#16) ∧
      (s.inp.keys.getLsbD ((s.reg x).toNat % 16) = false → t.pc = s.pc + 2#16)) ∧
    (∃ t, completesIn (.sknpVx x gy) s t ∧ frame [.pc, .status] s t ∧
      (s.inp.keys.getLsbD ((s.reg x).toNat % 16) = false → t.pc = s.pc + 4#16) ∧
      (s.inp.keys.getLsbD ((s.reg x).toNat % 16) = true → t.pc = s.pc + 2#16))

/-- Stack round trip: the CALL of one cycle and the RET of the next leave PC at the CALL's pc0 + 2 and SP as it was
(R151, which the spec derives from R140 and R142). -/
def Obligations.CallThenReturnComesBackAfterTheCall : Prop :=
  ∀ (s t u : State) (nnn : Addr12) (gx gy : Nibble),
    s.nextInstr = some (.callAddr nnn) → s.sp.val < 16 → step s = .next t →
    t.nextInstr = some (.ret gx gy) → step t = .next u → u.pc = s.pc + 2#16 ∧ u.sp = s.sp

/-! ## Immediate loads, immediate add, index load, random -/

/-- R170 and R172: LD Vx, byte writes NN to V[X]; LD I, addr writes NNN to I. -/
def Obligations.ImmediateLoadsWriteTheImmediate : Prop :=
  ∀ (x : Nibble) (nn : Byte) (nnn : Addr12) (s : State),
    (∃ t, completesIn (.ldVxByte x nn) s t ∧ t.reg x = nn ∧ onlyRegs [x] s t ∧ t.pc = s.pc + 2#16 ∧
      frame [.regs, .pc, .status] s t) ∧
    (∃ t, completesIn (.ldIAddr nnn) s t ∧ t.i = nnn.setWidth 16 ∧ t.pc = s.pc + 2#16 ∧
      frame [.index, .pc, .status] s t)

/-- R171: ADD Vx, byte adds mod 256 and writes no other register, VF included. -/
def Obligations.ImmediateAddWrapsAndWritesNoFlag : Prop :=
  ∀ (x : Nibble) (nn : Byte) (s : State),
    ∃ t, completesIn (.addVxByte x nn) s t ∧ (t.reg x).toNat = ((s.reg x).toNat + nn.toNat) % 256 ∧ onlyRegs [x] s t ∧
      t.pc = s.pc + 2#16 ∧ frame [.regs, .pc, .status] s t

/-- R173: RND writes the cycle's random byte ANDed with NN. -/
def Obligations.RandomWritesTheMaskedRandomByte : Prop :=
  ∀ (x : Nibble) (nn : Byte) (s : State),
    ∃ t, completesIn (.rndVxByte x nn) s t ∧ t.reg x = s.inp.rnd &&& nn ∧ onlyRegs [x] s t ∧ t.pc = s.pc + 2#16 ∧
      frame [.regs, .pc, .status] s t

/-! ## ALU -/

/-- R181 to R184: LD, OR, AND and XOR of two registers write V[X] and no other register. -/
def Obligations.CopyAndLogicWriteOnlyVx : Prop :=
  ∀ (x y : Nibble) (s : State),
    (∃ t, completesIn (.ldVxVy x y) s t ∧ t.reg x = s.reg y ∧ onlyRegs [x] s t ∧ t.pc = s.pc + 2#16 ∧
      frame [.regs, .pc, .status] s t) ∧
    (∃ t, completesIn (.orVxVy x y) s t ∧ t.reg x = s.reg x ||| s.reg y ∧ onlyRegs [x] s t ∧ t.pc = s.pc + 2#16 ∧
      frame [.regs, .pc, .status] s t) ∧
    (∃ t, completesIn (.andVxVy x y) s t ∧ t.reg x = s.reg x &&& s.reg y ∧ onlyRegs [x] s t ∧ t.pc = s.pc + 2#16 ∧
      frame [.regs, .pc, .status] s t) ∧
    (∃ t, completesIn (.xorVxVy x y) s t ∧ t.reg x = s.reg x ^^^ s.reg y ∧ onlyRegs [x] s t ∧ t.pc = s.pc + 2#16 ∧
      frame [.regs, .pc, .status] s t)

/-- ADD Vx, Vy: V[X] is the sum mod 256, and VF the carry unless X is VF (R185, R191; that the result stays where X = 0xF
rests on D13, log 7). -/
def Obligations.AddWritesTheSumAndTheCarry : Prop :=
  ∀ (x y : Nibble) (s : State),
    ∃ t, completesIn (.addVxVy x y) s t ∧ (t.reg x).toNat = ((s.reg x).toNat + (s.reg y).toNat) % 256 ∧
      (x ≠ vF → t.reg vF = if 255 < (s.reg x).toNat + (s.reg y).toNat then 0x01#8 else 0x00#8) ∧
      onlyRegs [x, vF] s t ∧ t.pc = s.pc + 2#16 ∧ frame [.regs, .pc, .status] s t

/-- SUB and SUBN: V[X] is the difference mod 256, and VF 1 where there is no borrow unless X is VF (R186, R188, R191; that
the result stays where X = 0xF rests on D13, log 7). -/
def Obligations.SubtractsWriteTheDifferenceAndNotBorrow : Prop :=
  ∀ (x y : Nibble) (s : State),
    (∃ t, completesIn (.subVxVy x y) s t ∧ (t.reg x).toNat = ((s.reg x).toNat + 256 - (s.reg y).toNat) % 256 ∧
      (x ≠ vF → t.reg vF = if (s.reg y).toNat ≤ (s.reg x).toNat then 0x01#8 else 0x00#8) ∧
      onlyRegs [x, vF] s t ∧ t.pc = s.pc + 2#16 ∧ frame [.regs, .pc, .status] s t) ∧
    (∃ t, completesIn (.subnVxVy x y) s t ∧ (t.reg x).toNat = ((s.reg y).toNat + 256 - (s.reg x).toNat) % 256 ∧
      (x ≠ vF → t.reg vF = if (s.reg x).toNat ≤ (s.reg y).toNat then 0x01#8 else 0x00#8) ∧
      onlyRegs [x, vF] s t ∧ t.pc = s.pc + 2#16 ∧ frame [.regs, .pc, .status] s t)

/-- SHR and SHL shift V[X] by one, whatever Y is, and VF is the bit shifted out unless X is VF (R187, R189; that the result
stays where X = 0xF rests on D13, log 7). -/
def Obligations.ShiftsWriteTheShiftedByteAndTheLostBit : Prop :=
  ∀ (x y : Nibble) (s : State),
    (∃ t, completesIn (.shrVxVy x y) s t ∧ (t.reg x).toNat = (s.reg x).toNat / 2 ∧
      (x ≠ vF → (t.reg vF).toNat = (s.reg x).toNat % 2) ∧
      onlyRegs [x, vF] s t ∧ t.pc = s.pc + 2#16 ∧ frame [.regs, .pc, .status] s t) ∧
    (∃ t, completesIn (.shlVxVy x y) s t ∧ (t.reg x).toNat = (s.reg x).toNat * 2 % 256 ∧
      (x ≠ vF → (t.reg vF).toNat = (s.reg x).toNat / 128) ∧
      onlyRegs [x, vF] s t ∧ t.pc = s.pc + 2#16 ∧ frame [.regs, .pc, .status] s t)

/-! ## Display -/

/-- R203: CLS clears every pixel and writes no register. -/
def Obligations.ClearScreenClearsEveryPixel : Prop :=
  ∀ (gx gy : Nibble) (s : State),
    ∃ t, completesIn (.cls gx gy) s t ∧ (∀ px py, px < 64 → py < 32 → t.pixel px py = false) ∧ t.pc = s.pc + 2#16 ∧
      frame [.fb, .pc, .status] s t

/-- DRW of a sprite that lies in MEM: every pixel is XORed with the sprite's bit there, wrapping at the edges, and VF is 1
where a set pixel met a 1 bit and else 0 (R201, R204). N = 0 draws nothing and needs no byte (D30, log 15); the range of
addresses is exact (D16, log 10). -/
def Obligations.DrawComposesByXorAndReportsCollision : Prop :=
  ∀ (x y n : Nibble) (s : State), n.toNat = 0 ∨ s.i.toNat + n.toNat ≤ 0x1000 →
    let rows := (List.range n.toNat).map fun r => s.mem.read (s.i.toNat + r)
    ∃ t, completesIn (.drwVxVyN x y n) s t ∧
      (∀ px py, px < 64 → py < 32 →
        t.pixel px py = (s.pixel px py ^^ spriteBit rows (s.reg x) (s.reg y) px py)) ∧
      ((t.reg vF = 0x01#8 ∧ ∃ px py, px < 64 ∧ py < 32 ∧ spriteBit rows (s.reg x) (s.reg y) px py = true ∧
          s.pixel px py = true) ∨
        (t.reg vF = 0x00#8 ∧ ∀ px py, px < 64 → py < 32 → spriteBit rows (s.reg x) (s.reg y) px py = true →
          s.pixel px py = false)) ∧
      onlyRegs [vF] s t ∧ t.pc = s.pc + 2#16 ∧ frame [.fb, .regs, .pc, .status] s t

/-- Drawing a sprite twice at one place brings the screen back, and the second drawing collides exactly where the sprite
has a 1 bit on a pixel that was clear at first (the general form of examples S3 and S4 of 95_test_vectors.md; R204, D16,
log 10). X or Y = 0xF is not one place, since the first drawing writes VF; those forms are in
DrawComposesByXorAndReportsCollision. -/
def Obligations.DrawingTwiceRestoresTheScreen : Prop :=
  ∀ (x y n : Nibble) (s t u : State), n.toNat = 0 ∨ s.i.toNat + n.toNat ≤ 0x1000 → x ≠ vF → y ≠ vF →
    exec (.drwVxVyN x y n) s = .next t → exec (.drwVxVyN x y n) t = .next u →
    (∀ px py, px < 64 → py < 32 → u.pixel px py = s.pixel px py) ∧
    (u.reg vF = 0x01#8 ↔ ∃ px py, px < 64 ∧ py < 32 ∧
      spriteBit ((List.range n.toNat).map fun r => s.mem.read (s.i.toNat + r)) (s.reg x) (s.reg y) px py = true ∧
      s.pixel px py = false)

/-- The host's port to the whole framebuffer has FB(x, y) at bit y * 64 + x, and the address translator inverts (R200,
R202; the order rests on D20, log 21). -/
def Obligations.ReadPortOrdersPixelsByRow : Prop :=
  ∀ (fb : Framebuffer) (x y : Nat), x < 64 → y < 32 →
    (Framebuffer.bits fb).getLsbD (pixelIndex x y) = Framebuffer.pixel fb x y ∧ pixelIndex x y < 2048 ∧
    pixelOfIndex (pixelIndex x y) = (x, y)

/-! ## Timers and keys -/

/-- LD Vx, DT writes DT as it stands before this cycle's tick, which then counts DT down (R220, R125). -/
def Obligations.ReadDelayTimerComesBeforeTheTick : Prop :=
  ∀ (x gy : Nibble) (s : State),
    ∃ t, completesIn (.ldVxDt x gy) s t ∧ t.reg x = s.dt ∧ onlyRegs [x] s t ∧ t.pc = s.pc + 2#16 ∧
      frame [.regs, .pc, .status] s t ∧ (s.inp.tickEn = true → t.endCycle.dt.toNat = s.dt.toNat - 1)

/-- R223 and R224: FX15 and FX18 write V[X] to DT and ST, and with tick_en = 1 the same cycle's tick counts the new value
down; FX18 of 1 beeps in its own cycle and of 0 never. -/
def Obligations.TimerWritesAreTickedInTheirOwnCycle : Prop :=
  ∀ (x gy : Nibble) (s : State),
    (∃ t, completesIn (.ldDtVx x) s t ∧ t.dt = s.reg x ∧ t.pc = s.pc + 2#16 ∧ frame [.dt, .pc, .status] s t ∧
      (s.inp.tickEn = true → t.endCycle.dt.toNat = (s.reg x).toNat - 1)) ∧
    (∃ t, completesIn (.ldStVx x gy) s t ∧ t.st = s.reg x ∧ t.pc = s.pc + 2#16 ∧ frame [.st, .pc, .status] s t ∧
      (s.inp.tickEn = true → t.endCycle.st.toNat = (s.reg x).toNat - 1 ∧
        (t.endCycle.status.beep = true ↔ s.reg x = 0x01#8)))

/-- LD Vx, K: with no key pressed it waits, all state kept; else V[X] is the least pressed key (R221, R222; level and
least key rest on D14, log 8, the STATUS fields on D11, log 13). -/
def Obligations.KeyWaitTakesTheLeastPressedKey : Prop :=
  ∀ (x gy : Nibble) (s : State),
    (s.inp.keys = 0#16 → ∃ t, exec (.ldVxK x gy) s = .next t ∧ t.reports .waitingForKey .none 0#17 ∧
      frame [.status] s t) ∧
    (s.inp.keys ≠ 0#16 → ∃ t, completesIn (.ldVxK x gy) s t ∧ (t.reg x).toNat < 16 ∧
      s.inp.keys.getLsbD (t.reg x).toNat = true ∧ (∀ j, j < (t.reg x).toNat → s.inp.keys.getLsbD j = false) ∧
      onlyRegs [x] s t ∧ t.pc = s.pc + 2#16 ∧ frame [.regs, .pc, .status] s t)

/-- DT set to v by FX15 and read by FX07 k + 1 cycles later, tick_en = 1 throughout and no FX15 between, reads
max(v - (k + 1), 0), whatever the cycles between do, errors and waits too (R301; those cycles' ticks rest on D8, log 11). -/
def Obligations.DelayTimerReadsBackCountedDownByTheCycles : Prop :=
  ∀ (k : Nat) (x y gy : Nibble) (s t u w : State),
    s.nextInstr = some (.ldDtVx x) → s.inp.tickEn = true → step s = .next t → TickedCycles k t u →
    u.nextInstr = some (.ldVxDt y gy) → step u = .next w → (w.reg y).toNat = (s.reg x).toNat - (k + 1)

/-! ## Index and memory -/

/-- ADD I, Vx: I is the sum mod 0x10000 and VF the flag of the exact sum above 0xFFF, V[X] read first also where X = 0xF
(R235; a sum above 0xFFFF rests on D18, log 10). -/
def Obligations.AddIndexFlagsSumsAboveTheAddressRange : Prop :=
  ∀ (x gy : Nibble) (s : State),
    ∃ t, completesIn (.addIVx x gy) s t ∧ t.i.toNat = (s.i.toNat + (s.reg x).toNat) % 0x10000 ∧
      t.reg vF = (if 0xFFF < s.i.toNat + (s.reg x).toNat then 0x01#8 else 0x00#8) ∧ onlyRegs [vF] s t ∧
      t.pc = s.pc + 2#16 ∧ frame [.index, .regs, .pc, .status] s t

/-- LD F, Vx: I is FONT_BASE + 5 * (V[X] & 0xF), below 0x200, whatever the value of the parameter FONT_BASE (R236; D1,
log 1; a V[X] above 0xF rests on D15, log 9). -/
def Obligations.FontAddressIsBasePlusFiveTimesTheDigit : Prop :=
  ∀ (x gy : Nibble) (s : State),
    ∃ t, completesIn (.ldFVx x gy) s t ∧ t.i.toNat = Config.fontBase.val + 5 * ((s.reg x).toNat % 16) ∧
      t.i.toNat < 0x200 ∧ t.pc = s.pc + 2#16 ∧ frame [.index, .pc, .status] s t

/-- LD B, Vx: the three digits of V[X] at I, I + 1, I + 2, which give V[X] back, and no other byte changed, where I + 2
is an address (R237; D9, log 12). -/
def Obligations.BcdStoresTheThreeDigits : Prop :=
  ∀ (x gy : Nibble) (s : State), s.i.toNat + 2 < 0x1000 →
    ∃ t, completesIn (.ldBVx x gy) s t ∧
      (t.mem.read (s.effectiveAddress 0)).toNat = (s.reg x).toNat / 100 ∧
      (t.mem.read (s.effectiveAddress 1)).toNat = (s.reg x).toNat / 10 % 10 ∧
      (t.mem.read (s.effectiveAddress 2)).toNat = (s.reg x).toNat % 10 ∧
      100 * (t.mem.read (s.effectiveAddress 0)).toNat + 10 * (t.mem.read (s.effectiveAddress 1)).toNat
        + (t.mem.read (s.effectiveAddress 2)).toNat = (s.reg x).toNat ∧
      memKeptOutside (s.effectiveAddress 0) 3 s t ∧ t.pc = s.pc + 2#16 ∧ frame [.mem, .pc, .status] s t

/-- LD [I], Vx: V[r] at I + r for r in 0 to X and no other byte changed, I kept, where I + X is an address (R238; D9,
log 12). -/
def Obligations.StoreRegistersWritesV0ToVx : Prop :=
  ∀ (x : Nibble) (s : State), s.i.toNat + x.toNat < 0x1000 →
    ∃ t, completesIn (.ldMemIVx x) s t ∧
      (∀ r : Nibble, r.toNat ≤ x.toNat → t.mem.read (s.effectiveAddress r.toNat) = s.reg r) ∧
      memKeptOutside (s.effectiveAddress 0) (x.toNat + 1) s t ∧ t.pc = s.pc + 2#16 ∧ frame [.mem, .pc, .status] s t

/-- LD Vx, [I]: V[r] is the byte at I + r for r in 0 to X and no other register changed, I kept, where I + X is an
address (R239; D9, log 12). -/
def Obligations.LoadRegistersReadsV0ToVx : Prop :=
  ∀ (x : Nibble) (s : State), s.i.toNat + x.toNat < 0x1000 →
    ∃ t, completesIn (.ldVxMemI x) s t ∧
      (∀ r : Nibble, r.toNat ≤ x.toNat → t.reg r = s.mem.read (s.effectiveAddress r.toNat)) ∧
      (∀ r : Nibble, x.toNat < r.toNat → t.reg r = s.reg r) ∧ t.pc = s.pc + 2#16 ∧ frame [.regs, .pc, .status] s t

/-- DRW, FX33, FX55 and FX65 raise MEM_RANGE exactly where their range of n > 0 bytes from I on leaves MEM, with the
lowest address of 0x1000 or above, and then nothing changes but STATUS (R205, R262; D9, D11, D16, log 10, log 12). -/
def Obligations.RangeErrorsReportTheLowestFailingAddress : Prop :=
  ∀ (i : Instr) (s : State),
    (0 < i.accessedBytes → 0x1000 < s.i.toNat + i.accessedBytes →
      ∃ t, exec i s = .next t ∧ t.status.status = .fatalError ∧ t.status.cause = .memRange ∧
        t.status.info.toNat = max s.i.toNat 0x1000 ∧ frame [.status] s t) ∧
    (∀ t, exec i s = .next t → t.status.cause = .memRange →
      0 < i.accessedBytes ∧ 0x1000 < s.i.toNat + i.accessedBytes)

/-- FX65 after FX55 with the same X, from any state with that memory and I, brings V0 to VX back (R238, R239; D9,
log 12). -/
def Obligations.LoadAfterStoreRestoresTheRegisters : Prop :=
  ∀ (x : Nibble) (s t u w : State), s.i.toNat + x.toNat < 0x1000 → exec (.ldMemIVx x) s = .next t →
    u.mem = t.mem → u.i = t.i → exec (.ldVxMemI x) u = .next w →
    ∀ r : Nibble, r.toNat ≤ x.toNat → w.reg r = s.reg r

/-- Two bytes stored by FX55 are the opcode that a later fetch at their address gives, big-endian (R66, R75; D23,
log 22). -/
def Obligations.StoredBytesAreFetchedAsAnOpcode : Prop :=
  ∀ (x r : Nibble) (s t u : State), s.i.toNat + x.toNat < 0x1000 → r.toNat < x.toNat →
    exec (.ldMemIVx x) s = .next t → u.mem = t.mem → u.pc.toNat = s.effectiveAddress r.toNat →
    u.fetch = some (s.reg r ++ s.reg (r + 1#4))

/-! ## Reset and load -/

/-- What reset leaves in every piece of state but MEM, and that a reset between cycles leaves the same, MEM included
(R45, R297; the values rest on D4, D5, D6, D11 and D24, log 5). -/
def Obligations.ResetLeavesTheSpecifiedValues : Prop :=
  (∀ r, State.reset.reg r = 0x00#8) ∧ State.reset.i = 0x0000#16 ∧ State.reset.pc = 0x0200#16 ∧
  State.reset.sp.val = 0 ∧ (∀ k, State.reset.stackAt k = 0x0000#16) ∧ State.reset.dt = 0x00#8 ∧
  State.reset.st = 0x00#8 ∧ (∀ px py, px < 64 → py < 32 → State.reset.pixel px py = false) ∧
  State.reset.reports .completed .none 0#17 ∧ State.reset.status.beep = false ∧
  ∀ s : State, frame [.inputs] State.reset s.hostReset

/-- MEM after reset holds FONT_TABLE at FONT_BASE, below the program, and 0x00 at every other address, whatever the
values of the two parameters (R6, R77, R292; D1, D2, D3, log 1, log 6). -/
def Obligations.ResetMemoryHoldsTheFontAndZeros : Prop :=
  Config.fontBase.val + 80 ≤ 0x200 ∧
  (∀ j : Fin 80, State.reset.mem.read (Config.fontBase.val + j.val) = Config.fontTable[j.val]'j.isLt) ∧
  (∀ a, a < 0x1000 → ¬ (Config.fontBase.val ≤ a ∧ a < Config.fontBase.val + 80) → State.reset.mem.read a = 0x00#8)

/-- load_program copies at most 3584 bytes to 0x200 and on, and changes nothing else; a longer program is rejected (R293,
R294; D25, log 18). -/
def Obligations.ProgramLoadCopiesTheBytesOrRejects : Prop :=
  ∀ (s : State) (bytes : List Byte),
    (bytes.length ≤ 3584 → ∃ t, s.loadProgram bytes = some t ∧
      (∀ j, j < bytes.length → t.mem.read (0x200 + j) = bytes.getD j 0x00#8) ∧
      memKeptOutside 0x200 bytes.length s t ∧ frame [.mem] s t) ∧
    (3584 < bytes.length → s.loadProgram bytes = none)
end

