-- ==== Sys2Proof/Laws/Decode.lean ====
section
/-! SUPPORT. The fields of an opcode that is put together from fields, and an opcode put together from its fields
(spec/30_encoding.md R91, R92). -/

namespace Sys2Proof

theorem getLsbD_opcodeXYN (c x y n : Nibble) (k : Nat) : (opcodeXYN c x y n).getLsbD k =
    if k < 4 then n.getLsbD k else if k < 8 then y.getLsbD (k - 4) else if k < 12 then x.getLsbD (k - 8)
    else c.getLsbD (k - 12) := by
  unfold opcodeXYN
  simp only [BitVec.getLsbD_append, Nat.sub_sub]
  split
  · rfl
  · split
    · rw [if_pos (by omega)]
    · split
      · rw [if_neg (by omega), if_pos (by omega)]
      · rw [if_neg (by omega), if_neg (by omega)]

theorem getLsbD_opcodeXNN (c x : Nibble) (nn : Byte) (k : Nat) : (opcodeXNN c x nn).getLsbD k =
    if k < 8 then nn.getLsbD k else if k < 12 then x.getLsbD (k - 8) else c.getLsbD (k - 12) := by
  unfold opcodeXNN
  simp only [BitVec.getLsbD_append, Nat.sub_sub]
  split
  · rfl
  · split
    · rw [if_pos (by omega)]
    · rw [if_neg (by omega)]

theorem getLsbD_opcodeNNN (c : Nibble) (nnn : Addr12) (k : Nat) : (opcodeNNN c nnn).getLsbD k =
    if k < 12 then nnn.getLsbD k else c.getLsbD (k - 12) := by
  unfold opcodeNNN
  simp only [BitVec.getLsbD_append]

@[simp] theorem fieldC_opcodeXYN (c x y n : Nibble) : fieldC (opcodeXYN c x y n) = c := by
  refine BitVec.eq_of_getLsbD_eq fun k hk => ?_
  rw [fieldC, BitVec.getLsbD_extractLsb', getLsbD_opcodeXYN, if_neg (by omega), if_neg (by omega), if_neg (by omega)]
  simp [hk]

@[simp] theorem fieldX_opcodeXYN (c x y n : Nibble) : fieldX (opcodeXYN c x y n) = x := by
  refine BitVec.eq_of_getLsbD_eq fun k hk => ?_
  rw [fieldX, BitVec.getLsbD_extractLsb', getLsbD_opcodeXYN, if_neg (by omega), if_neg (by omega), if_pos (by omega)]
  simp [hk]

@[simp] theorem fieldY_opcodeXYN (c x y n : Nibble) : fieldY (opcodeXYN c x y n) = y := by
  refine BitVec.eq_of_getLsbD_eq fun k hk => ?_
  rw [fieldY, BitVec.getLsbD_extractLsb', getLsbD_opcodeXYN, if_neg (by omega), if_pos (by omega)]
  simp [hk]

@[simp] theorem fieldN_opcodeXYN (c x y n : Nibble) : fieldN (opcodeXYN c x y n) = n := by
  refine BitVec.eq_of_getLsbD_eq fun k hk => ?_
  rw [fieldN, BitVec.getLsbD_extractLsb', getLsbD_opcodeXYN, if_pos (by omega)]
  simp [hk]

@[simp] theorem fieldC_opcodeXNN (c x : Nibble) (nn : Byte) : fieldC (opcodeXNN c x nn) = c := by
  refine BitVec.eq_of_getLsbD_eq fun k hk => ?_
  rw [fieldC, BitVec.getLsbD_extractLsb', getLsbD_opcodeXNN, if_neg (by omega), if_neg (by omega)]
  simp [hk]

@[simp] theorem fieldX_opcodeXNN (c x : Nibble) (nn : Byte) : fieldX (opcodeXNN c x nn) = x := by
  refine BitVec.eq_of_getLsbD_eq fun k hk => ?_
  rw [fieldX, BitVec.getLsbD_extractLsb', getLsbD_opcodeXNN, if_neg (by omega), if_pos (by omega)]
  simp [hk]

@[simp] theorem fieldNN_opcodeXNN (c x : Nibble) (nn : Byte) : fieldNN (opcodeXNN c x nn) = nn := by
  refine BitVec.eq_of_getLsbD_eq fun k hk => ?_
  rw [fieldNN, BitVec.getLsbD_extractLsb', getLsbD_opcodeXNN, if_pos (by omega)]
  simp [hk]

@[simp] theorem fieldC_opcodeNNN (c : Nibble) (nnn : Addr12) : fieldC (opcodeNNN c nnn) = c := by
  refine BitVec.eq_of_getLsbD_eq fun k hk => ?_
  rw [fieldC, BitVec.getLsbD_extractLsb', getLsbD_opcodeNNN, if_neg (by omega)]
  simp [hk]

@[simp] theorem fieldNNN_opcodeNNN (c : Nibble) (nnn : Addr12) : fieldNNN (opcodeNNN c nnn) = nnn := by
  refine BitVec.eq_of_getLsbD_eq fun k hk => ?_
  rw [fieldNNN, BitVec.getLsbD_extractLsb', getLsbD_opcodeNNN, if_pos (by omega)]
  simp [hk]

/-- An opcode is its four nibbles. -/
theorem opcodeXYN_fields (op : Half) : opcodeXYN (fieldC op) (fieldX op) (fieldY op) (fieldN op) = op := by
  refine BitVec.eq_of_getLsbD_eq fun k hk => ?_
  rw [getLsbD_opcodeXYN]
  simp only [fieldC, fieldX, fieldY, fieldN, BitVec.getLsbD_extractLsb', Nat.zero_add]
  split
  · simp [*]
  · split
    · rw [show 4 + (k - 4) = k by omega]; simp; omega
    · split
      · rw [show 8 + (k - 8) = k by omega]; simp; omega
      · rw [show 12 + (k - 12) = k by omega]; simp; omega

/-- An opcode is its class, its X and its NN. -/
theorem opcodeXNN_fields (op : Half) : opcodeXNN (fieldC op) (fieldX op) (fieldNN op) = op := by
  refine BitVec.eq_of_getLsbD_eq fun k hk => ?_
  rw [getLsbD_opcodeXNN]
  simp only [fieldC, fieldX, fieldNN, BitVec.getLsbD_extractLsb', Nat.zero_add]
  split
  · simp [*]
  · split
    · rw [show 8 + (k - 8) = k by omega]; simp; omega
    · rw [show 12 + (k - 12) = k by omega]; simp; omega

/-- An opcode is its class and its NNN. -/
theorem opcodeNNN_fields (op : Half) : opcodeNNN (fieldC op) (fieldNNN op) = op := by
  refine BitVec.eq_of_getLsbD_eq fun k hk => ?_
  rw [getLsbD_opcodeNNN]
  simp only [fieldC, fieldNNN, BitVec.getLsbD_extractLsb', Nat.zero_add]
  split
  · simp [*]
  · rw [show 12 + (k - 12) = k by omega]; simp; omega

/-- The two bytes of an opcode, merged, are the opcode (R66). -/
@[simp] theorem mergeBytes_opcodeBytes (op : Half) : mergeBytes (op.extractLsb' 8 8) (op.extractLsb' 0 8) = op := by
  refine BitVec.eq_of_getLsbD_eq fun k hk => ?_
  rw [mergeBytes, BitVec.getLsbD_append]
  simp only [BitVec.getLsbD_extractLsb', Nat.zero_add]
  split
  · simp [*]
  · rw [show 8 + (k - 8) = k by omega]; simp; omega

/-- The decoder on the bytes of an opcode, whatever follows them. -/
theorem decodeBytes_opcodeBytes (op : Half) (rest : List Byte) :
    decodeBytes (opcodeBytes op ++ rest) = (decode op).map fun i => (i, rest) := by
  simp [decodeBytes, opcodeBytes]

end Sys2Proof
end

