-- ==== Sys2Proof/Laws/Framebuffer.lean ====
section
/-! SUPPORT. What flipping a pixel, plotting a sprite row and drawing a sprite do to each pixel and to the collision
bit. -/

namespace Sys2Proof.Machine

theorem Framebuffer.pixel_clear (x y : Nat) : Framebuffer.pixel Framebuffer.clear x y = false := by
  unfold Framebuffer.pixel Framebuffer.clear
  split
  · rw [Vector.getElem_replicate, BitVec.getLsbD_zero]
  · rfl

/-- A flip changes its pixel and no other. -/
theorem Framebuffer.pixel_flip (fb : Framebuffer) {x y : Nat} (hx : x < 64) (hy : y < 32) (x' y' : Nat) :
    (Framebuffer.flip fb x y).pixel x' y' = (Framebuffer.pixel fb x' y' ^^ (decide (x' = x) && decide (y' = y))) := by
  unfold Framebuffer.pixel Framebuffer.flip
  by_cases h : y' < Config.fbHeight
  · have h32 : y < Config.fbHeight := hy
    simp only [h32, h, dif_pos, Vector.getElem_set]
    by_cases e : y = y'
    · subst e
      by_cases ex : x' = x
      · subst ex; simp [hx]
      · simp [ex, Ne.symm ex]
    · simp [e, Ne.symm e]
  · have : y' ≠ y := fun e => h (e ▸ hy)
    simp [h, this]

/-- One sprite bit: it is composed by XOR, and it collides where it meets a set pixel. -/
theorem Canvas.plot_spec (cv : Canvas) (bit : Bool) {x y : Nat} (hx : x < 64) (hy : y < 32) :
    (∀ x' y', (cv.plot bit x y).fb.pixel x' y'
      = (Framebuffer.pixel cv.fb x' y' ^^ (bit && (decide (x' = x) && decide (y' = y))))) ∧
    (cv.plot bit x y).collision = (cv.collision || (bit && Framebuffer.pixel cv.fb x y)) := by
  cases bit with
  | false => simp [Canvas.plot]
  | true => exact ⟨fun x' y' => by simpa [Canvas.plot] using Framebuffer.pixel_flip cv.fb hx hy x' y', by simp [Canvas.plot]⟩

/-- The bit that the last `n` columns of a sprite row put on column x' of their row. -/
def columnBit (row : Byte) (x0 n x' : Nat) : Bool :=
  (List.range n).any fun k => decide (x' = (x0 + (7 - k)) % 64) && row.getLsbD k

theorem columnBit_succ (row : Byte) (x0 n x' : Nat) :
    columnBit row x0 (n + 1) x' = (columnBit row x0 n x' || (decide (x' = (x0 + (7 - n)) % 64) && row.getLsbD n)) := by
  simp [columnBit, List.range_succ]

/-- The columns of one row meet no pixel twice. -/
theorem columnBit_fresh (row : Byte) (x0 : Nat) {n : Nat} (hn : n < 8) :
    columnBit row x0 n ((x0 + (7 - n)) % 64) = false := by
  simp only [columnBit, List.any_eq_false, List.mem_range, Bool.and_eq_true, decide_eq_true_eq, not_and]
  intro k hk e
  omega

/-- The last `n` columns of a sprite row: XOR on each pixel, and a collision where a 1 bit meets a set pixel. -/
theorem Canvas.plotColumns_spec (row : Byte) (x0 py : Nat) (hpy : py < 32) (n : Nat) (hn : n ≤ 8) (cv : Canvas) :
    (∀ x' y', (cv.plotColumns row x0 py n).fb.pixel x' y'
      = (Framebuffer.pixel cv.fb x' y' ^^ (decide (y' = py) && columnBit row x0 n x'))) ∧
    ((cv.plotColumns row x0 py n).collision = true ↔ cv.collision = true ∨
      ∃ k, k < n ∧ row.getLsbD k = true ∧ Framebuffer.pixel cv.fb ((x0 + (7 - k)) % 64) py = true) := by
  induction n generalizing cv with
  | zero => simp [Canvas.plotColumns, columnBit]
  | succ n ih =>
    have h7 : 7 - (7 - n) = n := by omega
    have hx : (x0 + (7 - n)) % Config.fbWidth < 64 := Nat.mod_lt _ (by decide)
    obtain ⟨p1, p2⟩ := Canvas.plot_spec cv (row.getLsbD (7 - (7 - n))) hx hpy
    obtain ⟨q1, q2⟩ := ih (by omega) (cv.plot (row.getLsbD (7 - (7 - n))) ((x0 + (7 - n)) % Config.fbWidth) py)
    have fresh := columnBit_fresh row x0 (n := n) (by omega)
    simp only [h7] at p1 p2 q1 q2
    refine ⟨fun x' y' => ?_, ?_⟩
    · simp only [Canvas.plotColumns, h7]
      rw [q1, p1, columnBit_succ]
      by_cases ey : y' = py
      · by_cases ex : x' = (x0 + (7 - n)) % 64
        · subst ex; simp [ey, fresh]
        · simp [ey, ex]
      · simp [ey]
    · simp only [Canvas.plotColumns, h7]
      rw [q2, p2]
      have others : ∀ k, k < n → Framebuffer.pixel
          (cv.plot (row.getLsbD n) ((x0 + (7 - n)) % Config.fbWidth) py).fb ((x0 + (7 - k)) % 64) py
          = Framebuffer.pixel cv.fb ((x0 + (7 - k)) % 64) py := by
        intro k hk
        have : (x0 + (7 - k)) % 64 ≠ (x0 + (7 - n)) % Config.fbWidth := by
          show (x0 + (7 - k)) % 64 ≠ (x0 + (7 - n)) % 64
          omega
        rw [p1]; simp [this]
      constructor
      · rintro (h | ⟨k, hk, hr, hp⟩)
        · rcases Bool.or_eq_true _ _ ▸ h with h | h
          · exact .inl h
          · rw [Bool.and_eq_true] at h
            exact .inr ⟨n, Nat.lt_succ_self n, h.1, h.2⟩
        · rw [others k hk] at hp
          exact .inr ⟨k, Nat.lt_succ_of_lt hk, hr, hp⟩
      · rintro (h | ⟨k, hk, hr, hp⟩)
        · exact .inl (by simp [h])
        · rcases Nat.lt_succ_iff_lt_or_eq.1 hk with hk | rfl
          · exact .inr ⟨k, hk, hr, (others k hk).trans hp⟩
          · refine .inl ?_
            rw [Bool.or_eq_true, Bool.and_eq_true]
            exact .inr ⟨hr, hp⟩

/-- The bit that sprite rows from row r on put on the pixel (x', y'). -/
def rowsBit (x0 y0 r : Nat) (rows : List Byte) (x' y' : Nat) : Bool :=
  (List.range rows.length).any fun j =>
    decide (y' = (y0 + (r + j)) % 32) && columnBit (rows.getD j 0x00#8) x0 8 x'

theorem rowsBit_cons (x0 y0 r : Nat) (row : Byte) (rows : List Byte) (x' y' : Nat) :
    rowsBit x0 y0 r (row :: rows) x' y'
      = ((decide (y' = (y0 + r) % 32) && columnBit row x0 8 x') || rowsBit x0 y0 (r + 1) rows x' y') := by
  simp only [rowsBit, List.length_cons, List.range_succ_eq_map, List.any_cons, List.any_map, Function.comp_def,
    List.getD_cons_zero, List.getD_cons_succ, Nat.add_zero, Nat.succ_eq_add_one, Nat.add_assoc, Nat.add_comm 1]

/-- The rows of a sprite of at most 32 rows meet no row of the screen twice. -/
theorem rowsBit_fresh (x0 y0 r : Nat) (rows : List Byte) (h : rows.length < 32) (x' : Nat) :
    rowsBit x0 y0 (r + 1) rows x' ((y0 + r) % 32) = false := by
  simp only [rowsBit, List.any_eq_false, List.mem_range, Bool.and_eq_true, decide_eq_true_eq, not_and]
  intro j hj e
  omega

/-- The rows of a sprite: XOR on each pixel, and a collision where a 1 bit meets a set pixel. -/
theorem Canvas.plotRows_spec (x0 y0 r : Nat) (rows : List Byte) (h : rows.length ≤ 32) (cv : Canvas) :
    (∀ x' y', (cv.plotRows x0 y0 r rows).fb.pixel x' y'
      = (Framebuffer.pixel cv.fb x' y' ^^ rowsBit x0 y0 r rows x' y')) ∧
    ((cv.plotRows x0 y0 r rows).collision = true ↔ cv.collision = true ∨
      ∃ x' y', rowsBit x0 y0 r rows x' y' = true ∧ Framebuffer.pixel cv.fb x' y' = true) := by
  induction rows generalizing cv r with
  | nil => simp [Canvas.plotRows, rowsBit]
  | cons row rows ih =>
    have hlen : rows.length < 32 := by simpa using h
    have hy : (y0 + r) % Config.fbHeight < 32 := Nat.mod_lt _ (by decide)
    obtain ⟨p1, p2⟩ := Canvas.plotColumns_spec row x0 _ hy 8 (Nat.le_refl 8) cv
    obtain ⟨q1, q2⟩ := ih (r + 1) (by omega) (cv.plotColumns row x0 ((y0 + r) % Config.fbHeight) 8)
    refine ⟨fun x' y' => ?_, ?_⟩
    · rw [Canvas.plotRows, q1, p1, rowsBit_cons]
      by_cases e : y' = (y0 + r) % 32
      · subst e; rw [rowsBit_fresh x0 y0 r rows hlen]; simp
      · simp [e]
    · rw [Canvas.plotRows, q2, p2]
      constructor
      · rintro ((hc | ⟨k, hk, hr, hp⟩) | ⟨x', y', hb, hp⟩)
        · exact .inl hc
        · refine .inr ⟨_, _, ?_, hp⟩
          rw [rowsBit_cons, Bool.or_eq_true]
          refine .inl ?_
          simp only [decide_true, Bool.true_and, columnBit, List.any_eq_true, List.mem_range, Bool.and_eq_true,
            decide_eq_true_eq]
          exact ⟨k, hk, rfl, hr⟩
        · have e : y' ≠ (y0 + r) % Config.fbHeight := by
            rintro rfl
            exact Bool.noConfusion (hb.symm.trans (rowsBit_fresh x0 y0 r rows hlen x'))
          rw [p1] at hp
          refine .inr ⟨x', y', by rw [rowsBit_cons, hb, Bool.or_true], by simpa [e] using hp⟩
      · rintro (hc | ⟨x', y', hb, hp⟩)
        · exact .inl (.inl hc)
        · rw [rowsBit_cons, Bool.or_eq_true] at hb
          by_cases e : y' = (y0 + r) % 32
          · subst e
            rw [rowsBit_fresh x0 y0 r rows hlen] at hb
            simp only [decide_true, Bool.true_and, Bool.false_eq_true, or_false, columnBit, List.any_eq_true,
              List.mem_range, Bool.and_eq_true, decide_eq_true_eq] at hb
            obtain ⟨k, hk, rfl, hr⟩ := hb
            exact .inl (.inr ⟨k, hk, hr, hp⟩)
          · have hb' : rowsBit x0 y0 (r + 1) rows x' y' = true := by simpa [e] using hb
            exact .inr ⟨x', y', hb', by rw [p1]; simpa [e] using hp⟩

/-- A whole sprite of at most 32 rows (R201, R204). -/
theorem drawSprite_spec (fb : Framebuffer) (vx vy : Byte) (rows : List Byte) (h : rows.length ≤ 32) :
    (∀ x' y', (drawSprite fb vx vy rows).fb.pixel x' y'
      = (Framebuffer.pixel fb x' y' ^^ rowsBit (vx.toNat % 64) (vy.toNat % 32) 0 rows x' y')) ∧
    ((drawSprite fb vx vy rows).collision = true ↔
      ∃ x' y', rowsBit (vx.toNat % 64) (vy.toNat % 32) 0 rows x' y' = true ∧ Framebuffer.pixel fb x' y' = true) := by
  have := Canvas.plotRows_spec (vx.toNat % 64) (vy.toNat % 32) 0 rows h { fb := fb, collision := false }
  exact ⟨this.1, by simpa [drawSprite] using this.2⟩

end Sys2Proof.Machine
end

