-- ==== Sys2Proof/Laws/Memory.lean ====
section
/-! SUPPORT. The laws of MEM: read after write, the canonical form kept, and what a sequence of checked accesses does. -/

namespace Sys2Proof.Machine.Memory

/-! ## Read after write (R70, R72) -/

theorem read_erase (m : Memory) (a a' : Nat) : (erase m a).read a' = if a' = a then resetByte a' else m.read a' := by
  induction m with
  | nil => simp [erase, read]
  | cons c m ih =>
    obtain ⟨k, b⟩ := c
    unfold erase at ih ⊢
    by_cases hk : k = a
    · subst hk
      simp only [List.filter_cons, bne_self_eq_false, Bool.false_eq_true, if_false, ih, read]
      by_cases h : a' = k
      · simp [h]
      · simp [h, Ne.symm h]
    · have : (k != a) = true := by simpa using hk
      simp only [List.filter_cons, this, if_true, read, ih]
      by_cases h : k = a'
      · simp [h, h ▸ hk]
      · simp [h]

theorem read_insert (m : Memory) (a a' : Nat) (b : Byte) :
    (insert m a b).read a' = if a' = a then b else m.read a' := by
  induction m with
  | nil => simp [insert, read, eq_comm]
  | cons c m ih =>
    obtain ⟨k, c⟩ := c
    unfold insert
    split
    · simp [read, eq_comm]
    · split
      · subst_vars
        by_cases h : a' = k
        · simp [read, h]
        · simp [read, h, Ne.symm h]
      · by_cases h : k = a'
        · subst h
          have : ¬ k = a := fun e => ‹¬a = k› e.symm
          simp [read, this]
        · simp [read, h, ih]

/-- A read after a write: the byte written at its address, and every other address as before. -/
@[simp] theorem read_write (m : Memory) (a a' : Nat) (b : Byte) :
    (write m a b).read a' = if a' = a then b else m.read a' := by
  unfold write
  split
  · simp only [read_erase, ‹b = resetByte a›]
    by_cases h : a' = a <;> simp [h]
  · exact read_insert m a a' b

/-! ## The canonical form -/

theorem risingAbove_mono {lo lo' : Nat} {m : Memory} (h : lo' ≤ lo) (hm : risingAbove lo m = true) :
    risingAbove lo' m = true := by
  cases m with
  | nil => rfl
  | cons c m => simp only [risingAbove, Bool.and_eq_true, decide_eq_true_eq] at hm ⊢; exact ⟨by omega, hm.2⟩

theorem risingAbove_erase (a : Nat) {lo : Nat} {m : Memory} (hm : risingAbove lo m = true) :
    risingAbove lo (erase m a) = true := by
  induction m generalizing lo with
  | nil => rfl
  | cons c m ih =>
    simp only [risingAbove, Bool.and_eq_true, decide_eq_true_eq] at hm
    unfold erase at ih ⊢
    by_cases h : (c.1 != a) = true
    · simp only [List.filter_cons, h, if_true, risingAbove, Bool.and_eq_true, decide_eq_true_eq]
      exact ⟨hm.1, ih hm.2⟩
    · simp only [List.filter_cons, h]
      exact risingAbove_mono (by omega) (ih hm.2)

theorem risingAbove_insert {lo a : Nat} (b : Byte) {m : Memory} (hlo : lo ≤ a) (hm : risingAbove lo m = true) :
    risingAbove lo (insert m a b) = true := by
  induction m generalizing lo with
  | nil => simpa [insert, risingAbove] using hlo
  | cons c m ih =>
    obtain ⟨k, c⟩ := c
    simp only [risingAbove, Bool.and_eq_true, decide_eq_true_eq] at hm
    unfold insert
    split
    · simp only [risingAbove, Bool.and_eq_true, decide_eq_true_eq]; exact ⟨hlo, by omega, hm.2⟩
    · split
      · subst_vars; simp only [risingAbove, Bool.and_eq_true, decide_eq_true_eq]; exact hm
      · simp only [risingAbove, Bool.and_eq_true, decide_eq_true_eq]; exact ⟨hm.1, ih (by omega) hm.2⟩

theorem mem_insert {m : Memory} {a : Nat} {b : Byte} {c : Host.Cell} (h : c ∈ insert m a b) : c = (a, b) ∨ c ∈ m := by
  induction m with
  | nil => exact .inl (by simpa [insert] using h)
  | cons d m ih =>
    obtain ⟨k, d⟩ := d
    unfold insert at h
    split at h
    · simpa using h
    · split at h
      · rcases List.mem_cons.1 h with h | h
        · exact .inl h
        · exact .inr (List.mem_cons_of_mem _ h)
      · rcases List.mem_cons.1 h with h | h
        · exact .inr (h ▸ List.mem_cons_self)
        · exact (ih h).imp id (List.mem_cons_of_mem _)

/-- The canonical form as facts. -/
theorem wf_iff (m : Memory) :
    m.wf = true ↔ risingAbove 0 m = true ∧ ∀ c ∈ m, c.1 < Config.memSize ∧ c.2 ≠ resetByte c.1 := by
  simp [wf]

/-- A write in range keeps the canonical form. -/
theorem wf_write {m : Memory} {a : Nat} (b : Byte) (hm : m.wf = true) (ha : a < Config.memSize) :
    (write m a b).wf = true := by
  rw [wf_iff] at hm ⊢
  unfold write
  split
  · exact ⟨risingAbove_erase a hm.1, fun c hc => hm.2 c (List.mem_filter.1 hc).1⟩
  · refine ⟨risingAbove_insert b (Nat.zero_le a) hm.1, fun c hc => ?_⟩
    rcases mem_insert hc with rfl | hc
    · exact ⟨ha, ‹_›⟩
    · exact hm.2 c hc

/-- Reset's memory lists nothing, which is canonical. -/
theorem wf_nil : wf [] = true := rfl

/-! ## Sequences of checked accesses (R10, R205) -/

/-- Reads of a range inside MEM give its bytes, lowest address first. -/
theorem loadBytes_ok (m : Memory) (base n : Nat) (h : n = 0 ∨ base + n ≤ 0x1000) :
    m.loadBytes base n = .ok ((List.range n).map fun r => m.read (base + r)) := by
  induction n generalizing base with
  | zero => rfl
  | succ n ih =>
    have hb : base < 0x1000 := by omega
    have hn : n = 0 ∨ base + 1 + n ≤ 0x1000 := by omega
    simp [loadBytes, memRead, Config.memSize, hb, ih (base + 1) hn, List.range_succ_eq_map, Nat.add_assoc, Nat.add_comm 1]

/-- Reads of a range that leaves MEM fail at its lowest address of 0x1000 or above. -/
theorem loadBytes_error (m : Memory) (base n : Nat) (hn : n ≠ 0) (h : 0x1000 < base + n) :
    m.loadBytes base n = .error (max base 0x1000) := by
  induction n generalizing base with
  | zero => exact absurd rfl hn
  | succ n ih =>
    by_cases hb : base < 0x1000
    · have h1 := ih (base + 1) (by omega) (by omega)
      have h2 : max (base + 1) 0x1000 = max base 0x1000 := by omega
      simp only [loadBytes, memRead, Config.memSize, hb, if_true, h1, h2]
    · have : max base 0x1000 = base := by omega
      simp only [loadBytes, memRead, Config.memSize, hb, if_false, this]

/-- Writes of a range inside MEM: each of its bytes is the one of the list, every other byte is as before, and the
canonical form is kept. -/
theorem storeBytes_ok (m : Memory) (base : Nat) (bs : List Byte) (h : bs = [] ∨ base + bs.length ≤ 0x1000) :
    ∃ m', m.storeBytes base bs = .ok m' ∧
      (∀ a, m'.read a = if base ≤ a ∧ a < base + bs.length then bs.getD (a - base) 0x00#8 else m.read a) ∧
      (m.wf = true → m'.wf = true) := by
  induction bs generalizing m base with
  | nil => exact ⟨m, rfl, fun a => by rw [if_neg (by rw [List.length_nil]; omega)], id⟩
  | cons b bs ih =>
    have hlen : base + (bs.length + 1) ≤ 0x1000 := by simpa using h
    have hb : base < 0x1000 := by omega
    obtain ⟨m', h1, h2, h3⟩ := ih (m.write base b) (base + 1) (.inr (by omega))
    refine ⟨m', by simpa [storeBytes, memWrite, Config.memSize, hb] using h1, fun a => ?_, fun hm => h3 (wf_write b hm hb)⟩
    rw [h2, read_write, List.length_cons]
    by_cases ha : a = base
    · subst ha; simp
    · by_cases hr : base + 1 ≤ a ∧ a < base + 1 + bs.length
      · have h4 : base ≤ a ∧ a < base + (bs.length + 1) := by omega
        have h5 : a - base = (a - (base + 1)) + 1 := by omega
        simp [hr, h4, h5]
      · have h4 : ¬ (base ≤ a ∧ a < base + (bs.length + 1)) := by omega
        rw [if_neg hr, if_neg h4, if_neg ha]

/-- Writes of a range that leaves MEM fail at its lowest address of 0x1000 or above. -/
theorem storeBytes_error (m : Memory) (base : Nat) (bs : List Byte) (hn : bs ≠ [])
    (h : 0x1000 < base + bs.length) : m.storeBytes base bs = .error (max base 0x1000) := by
  induction bs generalizing m base with
  | nil => exact absurd rfl hn
  | cons b bs ih =>
    rw [List.length_cons] at h
    by_cases hb : base < 0x1000
    · have hbs : bs ≠ [] := by rintro rfl; simp at h; omega
      have h1 := ih (m.write base b) (base + 1) hbs (by omega)
      have h2 : max (base + 1) 0x1000 = max base 0x1000 := by omega
      simp only [storeBytes, memWrite, Config.memSize, hb, if_true, h1, h2]
    · have : max base 0x1000 = base := by omega
      simp only [storeBytes, memWrite, Config.memSize, hb, if_false, this]

end Sys2Proof.Machine.Memory
end

