-- ==== Sys2Proof/Laws/Operands.lean ====
section
/-! SUPPORT. What the shared operands and flags compute, as numbers. -/

namespace Sys2Proof.Machine

/-- The lowest pressed key: none where no key is pressed, else the least index whose bit is set (R221). -/
theorem lowestKey_none {keys : BitVec 16} : lowestKey keys = none ↔ keys = 0#16 := by
  simp only [lowestKey, List.find?_eq_none, List.mem_range]
  constructor
  · intro h
    exact BitVec.eq_of_getLsbD_eq fun k hk => by simpa using h k hk
  · rintro rfl k _
    simp

theorem lowestKey_some {keys : BitVec 16} {k : Nat} (h : lowestKey keys = some k) :
    k < 16 ∧ keys.getLsbD k = true ∧ ∀ j, j < k → keys.getLsbD j = false := by
  have hm := List.mem_of_find?_eq_some h
  have hp := List.find?_some h
  rw [lowestKey, List.find?_range_eq_some] at h
  exact ⟨List.mem_range.1 hm, hp, fun j hj => by simpa using h.2.2 j hj⟩

/-- The low nibble of a byte. -/
theorem lowNibble_toNat (b : Byte) : (b &&& 0x0F#8).toNat = b.toNat % 16 := by
  rw [BitVec.toNat_and]
  exact Nat.and_two_pow_sub_one_eq_mod b.toNat 4

/-- NNN + V0 is exact (R147). -/
theorem offsetTarget_toNat (nnn : Addr12) (v0 : Byte) : (offsetTarget nnn v0).toNat = nnn.toNat + v0.toNat := by
  have h1 := nnn.isLt
  have h2 := v0.isLt
  simp only [offsetTarget, BitVec.toNat_add, BitVec.toNat_setWidth]
  omega

theorem absolute_toNat (nnn : Addr12) : (absolute nnn).toNat = nnn.toNat := by
  have h1 := nnn.isLt
  simp only [absolute, BitVec.toNat_setWidth]
  omega

/-- FONT_BASE + 5 * d fits in I (R236). -/
theorem glyphAddress_toNat (vx : Byte) : (glyphAddress vx).toNat = Config.fontBase.val + 5 * (vx.toNat % 16) := by
  have h := Config.fontBase.isLt
  rw [glyphAddress, lowNibble_toNat, BitVec.toNat_ofNat]
  omega

/-- The digits of a byte (R237). -/
theorem bcdDigits_toNat (b : Byte) :
    (bcdDigits b).map BitVec.toNat = [b.toNat / 100, b.toNat / 10 % 10, b.toNat % 10] := by
  have h := b.isLt
  simp only [bcdDigits, List.map_cons, List.map_nil, BitVec.toNat_ofNat, List.cons.injEq, and_true]
  omega

theorem keyPressed_eq (keys : BitVec 16) (vx : Byte) : keyPressed keys vx = keys.getLsbD (vx.toNat % 16) := by
  rw [keyPressed, lowNibble_toNat]

end Sys2Proof.Machine
end

