-- ==== Sys2Proof/Laws/PerInstr.lean ====
section
/-! SUPPORT. The family TableRow: every instruction's opcode lies in the row of spec/30_encoding.md R99 (and
spec/opcode_table.json) that bears its mnemonic: opcode & mask = match. -/

namespace Sys2Proof.Laws.TableRow

/-- mask and match of an instruction's row of R99. -/
def row : Instr → Half × Half
  | .cls _ _ => (0xF00F#16, 0x0000#16)
  | .ret _ _ => (0xF00F#16, 0x000E#16)
  | .jpAddr _ => (0xF000#16, 0x1000#16)
  | .callAddr _ => (0xF000#16, 0x2000#16)
  | .seVxByte _ _ => (0xF000#16, 0x3000#16)
  | .sneVxByte _ _ => (0xF000#16, 0x4000#16)
  | .seVxVy _ _ _ => (0xF000#16, 0x5000#16)
  | .ldVxByte _ _ => (0xF000#16, 0x6000#16)
  | .addVxByte _ _ => (0xF000#16, 0x7000#16)
  | .ldVxVy _ _ => (0xF00F#16, 0x8000#16)
  | .orVxVy _ _ => (0xF00F#16, 0x8001#16)
  | .andVxVy _ _ => (0xF00F#16, 0x8002#16)
  | .xorVxVy _ _ => (0xF00F#16, 0x8003#16)
  | .addVxVy _ _ => (0xF00F#16, 0x8004#16)
  | .subVxVy _ _ => (0xF00F#16, 0x8005#16)
  | .shrVxVy _ _ => (0xF00F#16, 0x8006#16)
  | .subnVxVy _ _ => (0xF00F#16, 0x8007#16)
  | .shlVxVy _ _ => (0xF00F#16, 0x800E#16)
  | .sneVxVy _ _ _ => (0xF000#16, 0x9000#16)
  | .ldIAddr _ => (0xF000#16, 0xA000#16)
  | .jpV0Addr _ => (0xF000#16, 0xB000#16)
  | .rndVxByte _ _ => (0xF000#16, 0xC000#16)
  | .drwVxVyN _ _ _ => (0xF000#16, 0xD000#16)
  | .skpVx _ _ => (0xF00F#16, 0xE00E#16)
  | .sknpVx _ _ => (0xF00F#16, 0xE001#16)
  | .ldVxDt _ _ => (0xF00F#16, 0xF007#16)
  | .ldVxK _ _ => (0xF00F#16, 0xF00A#16)
  | .ldDtVx _ => (0xF0FF#16, 0xF015#16)
  | .ldStVx _ _ => (0xF00F#16, 0xF008#16)
  | .addIVx _ _ => (0xF00F#16, 0xF00E#16)
  | .ldFVx _ _ => (0xF00F#16, 0xF009#16)
  | .ldBVx _ _ => (0xF00F#16, 0xF003#16)
  | .ldMemIVx _ => (0xF0FF#16, 0xF055#16)
  | .ldVxMemI _ => (0xF0FF#16, 0xF065#16)

def Statement (i : Instr) : Prop := encode i &&& (row i).1 = (row i).2

/-- A mask on an opcode is a mask on each nibble. -/
theorem mask_opcodeXYN (c x y n c' x' y' n' : Nibble) :
    opcodeXYN c x y n &&& opcodeXYN c' x' y' n' = opcodeXYN (c &&& c') (x &&& x') (y &&& y') (n &&& n') := by
  refine BitVec.eq_of_getLsbD_eq fun k _ => ?_
  simp only [BitVec.getLsbD_and, getLsbD_opcodeXYN]
  split_ifs <;> rfl

/-- The mask of the class and N. -/
theorem mask_classN (c x y n : Nibble) : opcodeXYN c x y n &&& 0xF00F#16 = opcodeXYN c 0x0#4 0x0#4 n := by
  rw [show 0xF00F#16 = opcodeXYN (BitVec.allOnes 4) 0x0#4 0x0#4 (BitVec.allOnes 4) by decide, mask_opcodeXYN]
  simp only [BitVec.and_allOnes, BitVec.and_zero]

/-- The mask of the class, Y and N. -/
theorem mask_classYN (c x y n : Nibble) : opcodeXYN c x y n &&& 0xF0FF#16 = opcodeXYN c 0x0#4 y n := by
  rw [show 0xF0FF#16 = opcodeXYN (BitVec.allOnes 4) 0x0#4 (BitVec.allOnes 4) (BitVec.allOnes 4) by decide,
    mask_opcodeXYN]
  simp only [BitVec.and_allOnes, BitVec.and_zero]

/-- The mask of the class alone. -/
theorem mask_class (c x y n : Nibble) : opcodeXYN c x y n &&& 0xF000#16 = opcodeXYN c 0x0#4 0x0#4 0x0#4 := by
  rw [show 0xF000#16 = opcodeXYN (BitVec.allOnes 4) 0x0#4 0x0#4 0x0#4 by decide, mask_opcodeXYN]
  simp only [BitVec.and_allOnes, BitVec.and_zero]

/-- The mask of the class, of an opcode with a byte immediate. -/
theorem mask_class_XNN (c x : Nibble) (nn : Byte) : opcodeXNN c x nn &&& 0xF000#16 = opcodeXYN c 0x0#4 0x0#4 0x0#4 := by
  rw [← opcodeXYN_fields (opcodeXNN c x nn), mask_class, fieldC_opcodeXNN]

/-- The mask of the class, of an opcode with an address immediate. -/
theorem mask_class_NNN (c : Nibble) (nnn : Addr12) : opcodeNNN c nnn &&& 0xF000#16 = opcodeXYN c 0x0#4 0x0#4 0x0#4 := by
  rw [← opcodeXYN_fields (opcodeNNN c nnn), mask_class, fieldC_opcodeNNN]

theorem cls (x y : Nibble) : Statement (.cls x y) := mask_classN _ _ _ _
theorem ret (x y : Nibble) : Statement (.ret x y) := mask_classN _ _ _ _
theorem jpAddr (a : Addr12) : Statement (.jpAddr a) := mask_class_NNN _ _
theorem callAddr (a : Addr12) : Statement (.callAddr a) := mask_class_NNN _ _
theorem seVxByte (x : Nibble) (b : Byte) : Statement (.seVxByte x b) := mask_class_XNN _ _ _
theorem sneVxByte (x : Nibble) (b : Byte) : Statement (.sneVxByte x b) := mask_class_XNN _ _ _
theorem seVxVy (x y n : Nibble) : Statement (.seVxVy x y n) := mask_class _ _ _ _
theorem ldVxByte (x : Nibble) (b : Byte) : Statement (.ldVxByte x b) := mask_class_XNN _ _ _
theorem addVxByte (x : Nibble) (b : Byte) : Statement (.addVxByte x b) := mask_class_XNN _ _ _
theorem ldVxVy (x y : Nibble) : Statement (.ldVxVy x y) := mask_classN _ _ _ _
theorem orVxVy (x y : Nibble) : Statement (.orVxVy x y) := mask_classN _ _ _ _
theorem andVxVy (x y : Nibble) : Statement (.andVxVy x y) := mask_classN _ _ _ _
theorem xorVxVy (x y : Nibble) : Statement (.xorVxVy x y) := mask_classN _ _ _ _
theorem addVxVy (x y : Nibble) : Statement (.addVxVy x y) := mask_classN _ _ _ _
theorem subVxVy (x y : Nibble) : Statement (.subVxVy x y) := mask_classN _ _ _ _
theorem shrVxVy (x y : Nibble) : Statement (.shrVxVy x y) := mask_classN _ _ _ _
theorem subnVxVy (x y : Nibble) : Statement (.subnVxVy x y) := mask_classN _ _ _ _
theorem shlVxVy (x y : Nibble) : Statement (.shlVxVy x y) := mask_classN _ _ _ _
theorem sneVxVy (x y n : Nibble) : Statement (.sneVxVy x y n) := mask_class _ _ _ _
theorem ldIAddr (a : Addr12) : Statement (.ldIAddr a) := mask_class_NNN _ _
theorem jpV0Addr (a : Addr12) : Statement (.jpV0Addr a) := mask_class_NNN _ _
theorem rndVxByte (x : Nibble) (b : Byte) : Statement (.rndVxByte x b) := mask_class_XNN _ _ _
theorem drwVxVyN (x y n : Nibble) : Statement (.drwVxVyN x y n) := mask_class _ _ _ _
theorem skpVx (x y : Nibble) : Statement (.skpVx x y) := mask_classN _ _ _ _
theorem sknpVx (x y : Nibble) : Statement (.sknpVx x y) := mask_classN _ _ _ _
theorem ldVxDt (x y : Nibble) : Statement (.ldVxDt x y) := mask_classN _ _ _ _
theorem ldVxK (x y : Nibble) : Statement (.ldVxK x y) := mask_classN _ _ _ _
theorem ldDtVx (x : Nibble) : Statement (.ldDtVx x) := mask_classYN _ _ _ _
theorem ldStVx (x y : Nibble) : Statement (.ldStVx x y) := mask_classN _ _ _ _
theorem addIVx (x y : Nibble) : Statement (.addIVx x y) := mask_classN _ _ _ _
theorem ldFVx (x y : Nibble) : Statement (.ldFVx x y) := mask_classN _ _ _ _
theorem ldBVx (x y : Nibble) : Statement (.ldBVx x y) := mask_classN _ _ _ _
theorem ldMemIVx (x : Nibble) : Statement (.ldMemIVx x) := mask_classYN _ _ _ _
theorem ldVxMemI (x : Nibble) : Statement (.ldVxMemI x) := mask_classYN _ _ _ _

end Sys2Proof.Laws.TableRow
end

