-- ==== Sys2Proof/Laws/State.lean ====
section
/-! SUPPORT. What each update of State leaves in each field, and what a register, a stack entry or a pixel reads as
after one: later proofs cite these and unfold no record update. -/

namespace Sys2Proof.Machine

/-! ## V[x] <- b -/

@[simp] theorem State.setReg_i (s : State) (x : Nibble) (b : Byte) : (s.setReg x b).i = s.i := rfl
@[simp] theorem State.setReg_pc (s : State) (x : Nibble) (b : Byte) : (s.setReg x b).pc = s.pc := rfl
@[simp] theorem State.setReg_sp (s : State) (x : Nibble) (b : Byte) : (s.setReg x b).sp = s.sp := rfl
@[simp] theorem State.setReg_stack (s : State) (x : Nibble) (b : Byte) : (s.setReg x b).stack = s.stack := rfl
@[simp] theorem State.setReg_dt (s : State) (x : Nibble) (b : Byte) : (s.setReg x b).dt = s.dt := rfl
@[simp] theorem State.setReg_st (s : State) (x : Nibble) (b : Byte) : (s.setReg x b).st = s.st := rfl
@[simp] theorem State.setReg_fb (s : State) (x : Nibble) (b : Byte) : (s.setReg x b).fb = s.fb := rfl
@[simp] theorem State.setReg_mem (s : State) (x : Nibble) (b : Byte) : (s.setReg x b).mem = s.mem := rfl
@[simp] theorem State.setReg_status (s : State) (x : Nibble) (b : Byte) : (s.setReg x b).status = s.status := rfl
@[simp] theorem State.setReg_inp (s : State) (x : Nibble) (b : Byte) : (s.setReg x b).inp = s.inp := rfl
@[simp] theorem State.setReg_pending (s : State) (x : Nibble) (b : Byte) : (s.setReg x b).pending = s.pending := rfl
@[simp] theorem State.setReg_cycle (s : State) (x : Nibble) (b : Byte) : (s.setReg x b).cycle = s.cycle := rfl

/-! ## PC <- a -/

@[simp] theorem State.setPc_v (s : State) (a : Half) : (s.setPc a).v = s.v := rfl
@[simp] theorem State.setPc_i (s : State) (a : Half) : (s.setPc a).i = s.i := rfl
@[simp] theorem State.setPc_pc (s : State) (a : Half) : (s.setPc a).pc = a := rfl
@[simp] theorem State.setPc_sp (s : State) (a : Half) : (s.setPc a).sp = s.sp := rfl
@[simp] theorem State.setPc_stack (s : State) (a : Half) : (s.setPc a).stack = s.stack := rfl
@[simp] theorem State.setPc_dt (s : State) (a : Half) : (s.setPc a).dt = s.dt := rfl
@[simp] theorem State.setPc_st (s : State) (a : Half) : (s.setPc a).st = s.st := rfl
@[simp] theorem State.setPc_fb (s : State) (a : Half) : (s.setPc a).fb = s.fb := rfl
@[simp] theorem State.setPc_mem (s : State) (a : Half) : (s.setPc a).mem = s.mem := rfl
@[simp] theorem State.setPc_status (s : State) (a : Half) : (s.setPc a).status = s.status := rfl
@[simp] theorem State.setPc_inp (s : State) (a : Half) : (s.setPc a).inp = s.inp := rfl
@[simp] theorem State.setPc_pending (s : State) (a : Half) : (s.setPc a).pending = s.pending := rfl
@[simp] theorem State.setPc_cycle (s : State) (a : Half) : (s.setPc a).cycle = s.cycle := rfl

/-! ## I <- a -/

@[simp] theorem State.setI_v (s : State) (a : Half) : (s.setI a).v = s.v := rfl
@[simp] theorem State.setI_i (s : State) (a : Half) : (s.setI a).i = a := rfl
@[simp] theorem State.setI_pc (s : State) (a : Half) : (s.setI a).pc = s.pc := rfl
@[simp] theorem State.setI_sp (s : State) (a : Half) : (s.setI a).sp = s.sp := rfl
@[simp] theorem State.setI_stack (s : State) (a : Half) : (s.setI a).stack = s.stack := rfl
@[simp] theorem State.setI_dt (s : State) (a : Half) : (s.setI a).dt = s.dt := rfl
@[simp] theorem State.setI_st (s : State) (a : Half) : (s.setI a).st = s.st := rfl
@[simp] theorem State.setI_fb (s : State) (a : Half) : (s.setI a).fb = s.fb := rfl
@[simp] theorem State.setI_mem (s : State) (a : Half) : (s.setI a).mem = s.mem := rfl
@[simp] theorem State.setI_status (s : State) (a : Half) : (s.setI a).status = s.status := rfl
@[simp] theorem State.setI_inp (s : State) (a : Half) : (s.setI a).inp = s.inp := rfl
@[simp] theorem State.setI_pending (s : State) (a : Half) : (s.setI a).pending = s.pending := rfl
@[simp] theorem State.setI_cycle (s : State) (a : Half) : (s.setI a).cycle = s.cycle := rfl

/-! ## PC <- pc0 + 2 -/

@[simp] theorem State.advance_v (s : State) : (s.advance).v = s.v := rfl
@[simp] theorem State.advance_i (s : State) : (s.advance).i = s.i := rfl
@[simp] theorem State.advance_pc (s : State) : (s.advance).pc = s.pc + 2#16 := rfl
@[simp] theorem State.advance_sp (s : State) : (s.advance).sp = s.sp := rfl
@[simp] theorem State.advance_stack (s : State) : (s.advance).stack = s.stack := rfl
@[simp] theorem State.advance_dt (s : State) : (s.advance).dt = s.dt := rfl
@[simp] theorem State.advance_st (s : State) : (s.advance).st = s.st := rfl
@[simp] theorem State.advance_fb (s : State) : (s.advance).fb = s.fb := rfl
@[simp] theorem State.advance_mem (s : State) : (s.advance).mem = s.mem := rfl
@[simp] theorem State.advance_status (s : State) : (s.advance).status = s.status := rfl
@[simp] theorem State.advance_inp (s : State) : (s.advance).inp = s.inp := rfl
@[simp] theorem State.advance_pending (s : State) : (s.advance).pending = s.pending := rfl
@[simp] theorem State.advance_cycle (s : State) : (s.advance).cycle = s.cycle := rfl

/-! ## Registers from a list of bytes -/

@[simp] theorem State.setRegs_v (s : State) (bs : List Byte) : (s.setRegs bs).v = setRegsFrom s.v 0 bs := rfl
@[simp] theorem State.setRegs_i (s : State) (bs : List Byte) : (s.setRegs bs).i = s.i := rfl
@[simp] theorem State.setRegs_pc (s : State) (bs : List Byte) : (s.setRegs bs).pc = s.pc := rfl
@[simp] theorem State.setRegs_sp (s : State) (bs : List Byte) : (s.setRegs bs).sp = s.sp := rfl
@[simp] theorem State.setRegs_stack (s : State) (bs : List Byte) : (s.setRegs bs).stack = s.stack := rfl
@[simp] theorem State.setRegs_dt (s : State) (bs : List Byte) : (s.setRegs bs).dt = s.dt := rfl
@[simp] theorem State.setRegs_st (s : State) (bs : List Byte) : (s.setRegs bs).st = s.st := rfl
@[simp] theorem State.setRegs_fb (s : State) (bs : List Byte) : (s.setRegs bs).fb = s.fb := rfl
@[simp] theorem State.setRegs_mem (s : State) (bs : List Byte) : (s.setRegs bs).mem = s.mem := rfl
@[simp] theorem State.setRegs_status (s : State) (bs : List Byte) : (s.setRegs bs).status = s.status := rfl
@[simp] theorem State.setRegs_inp (s : State) (bs : List Byte) : (s.setRegs bs).inp = s.inp := rfl
@[simp] theorem State.setRegs_pending (s : State) (bs : List Byte) : (s.setRegs bs).pending = s.pending := rfl
@[simp] theorem State.setRegs_cycle (s : State) (bs : List Byte) : (s.setRegs bs).cycle = s.cycle := rfl

/-! ## VF <- flag and V[x] <- result -/

@[simp] theorem State.setFlagThenReg_i (s : State) (flag : Bool) (x : Nibble) (b : Byte) : (s.setFlagThenReg flag x b).i = s.i := rfl
@[simp] theorem State.setFlagThenReg_pc (s : State) (flag : Bool) (x : Nibble) (b : Byte) : (s.setFlagThenReg flag x b).pc = s.pc := rfl
@[simp] theorem State.setFlagThenReg_sp (s : State) (flag : Bool) (x : Nibble) (b : Byte) : (s.setFlagThenReg flag x b).sp = s.sp := rfl
@[simp] theorem State.setFlagThenReg_stack (s : State) (flag : Bool) (x : Nibble) (b : Byte) : (s.setFlagThenReg flag x b).stack = s.stack := rfl
@[simp] theorem State.setFlagThenReg_dt (s : State) (flag : Bool) (x : Nibble) (b : Byte) : (s.setFlagThenReg flag x b).dt = s.dt := rfl
@[simp] theorem State.setFlagThenReg_st (s : State) (flag : Bool) (x : Nibble) (b : Byte) : (s.setFlagThenReg flag x b).st = s.st := rfl
@[simp] theorem State.setFlagThenReg_fb (s : State) (flag : Bool) (x : Nibble) (b : Byte) : (s.setFlagThenReg flag x b).fb = s.fb := rfl
@[simp] theorem State.setFlagThenReg_mem (s : State) (flag : Bool) (x : Nibble) (b : Byte) : (s.setFlagThenReg flag x b).mem = s.mem := rfl
@[simp] theorem State.setFlagThenReg_status (s : State) (flag : Bool) (x : Nibble) (b : Byte) : (s.setFlagThenReg flag x b).status = s.status := rfl
@[simp] theorem State.setFlagThenReg_inp (s : State) (flag : Bool) (x : Nibble) (b : Byte) : (s.setFlagThenReg flag x b).inp = s.inp := rfl
@[simp] theorem State.setFlagThenReg_pending (s : State) (flag : Bool) (x : Nibble) (b : Byte) : (s.setFlagThenReg flag x b).pending = s.pending := rfl
@[simp] theorem State.setFlagThenReg_cycle (s : State) (flag : Bool) (x : Nibble) (b : Byte) : (s.setFlagThenReg flag x b).cycle = s.cycle := rfl

/-! ## STATUS -/

@[simp] theorem State.report_v (s : State) (c : CycleStatus) (e : Cause) (n : BitVec 17) : (s.report c e n).v = s.v := rfl
@[simp] theorem State.report_i (s : State) (c : CycleStatus) (e : Cause) (n : BitVec 17) : (s.report c e n).i = s.i := rfl
@[simp] theorem State.report_pc (s : State) (c : CycleStatus) (e : Cause) (n : BitVec 17) : (s.report c e n).pc = s.pc := rfl
@[simp] theorem State.report_sp (s : State) (c : CycleStatus) (e : Cause) (n : BitVec 17) : (s.report c e n).sp = s.sp := rfl
@[simp] theorem State.report_stack (s : State) (c : CycleStatus) (e : Cause) (n : BitVec 17) : (s.report c e n).stack = s.stack := rfl
@[simp] theorem State.report_dt (s : State) (c : CycleStatus) (e : Cause) (n : BitVec 17) : (s.report c e n).dt = s.dt := rfl
@[simp] theorem State.report_st (s : State) (c : CycleStatus) (e : Cause) (n : BitVec 17) : (s.report c e n).st = s.st := rfl
@[simp] theorem State.report_fb (s : State) (c : CycleStatus) (e : Cause) (n : BitVec 17) : (s.report c e n).fb = s.fb := rfl
@[simp] theorem State.report_mem (s : State) (c : CycleStatus) (e : Cause) (n : BitVec 17) : (s.report c e n).mem = s.mem := rfl
@[simp] theorem State.report_status (s : State) (c : CycleStatus) (e : Cause) (n : BitVec 17) : (s.report c e n).status = { status := c, cause := e, info := n, beep := false } := rfl
@[simp] theorem State.report_inp (s : State) (c : CycleStatus) (e : Cause) (n : BitVec 17) : (s.report c e n).inp = s.inp := rfl
@[simp] theorem State.report_pending (s : State) (c : CycleStatus) (e : Cause) (n : BitVec 17) : (s.report c e n).pending = s.pending := rfl
@[simp] theorem State.report_cycle (s : State) (c : CycleStatus) (e : Cause) (n : BitVec 17) : (s.report c e n).cycle = s.cycle := rfl

/-! ## The inputs of the next cycle -/

@[simp] theorem State.sampleInputs_v (s : State) : (s.sampleInputs).v = s.v := rfl
@[simp] theorem State.sampleInputs_i (s : State) : (s.sampleInputs).i = s.i := rfl
@[simp] theorem State.sampleInputs_pc (s : State) : (s.sampleInputs).pc = s.pc := rfl
@[simp] theorem State.sampleInputs_sp (s : State) : (s.sampleInputs).sp = s.sp := rfl
@[simp] theorem State.sampleInputs_stack (s : State) : (s.sampleInputs).stack = s.stack := rfl
@[simp] theorem State.sampleInputs_dt (s : State) : (s.sampleInputs).dt = s.dt := rfl
@[simp] theorem State.sampleInputs_st (s : State) : (s.sampleInputs).st = s.st := rfl
@[simp] theorem State.sampleInputs_fb (s : State) : (s.sampleInputs).fb = s.fb := rfl
@[simp] theorem State.sampleInputs_mem (s : State) : (s.sampleInputs).mem = s.mem := rfl
@[simp] theorem State.sampleInputs_status (s : State) : (s.sampleInputs).status = s.status := rfl
@[simp] theorem State.sampleInputs_inp (s : State) : (s.sampleInputs).inp = s.nextInputs := rfl
@[simp] theorem State.sampleInputs_pending (s : State) : (s.sampleInputs).pending = s.pending.tail := rfl
@[simp] theorem State.sampleInputs_cycle (s : State) : (s.sampleInputs).cycle = s.cycle + 1 := rfl

/-! ## The tick: DT, ST and STATUS.beep -/

@[simp] theorem State.tick_v (s : State) : s.tick.v = s.v := by
  unfold State.tick; split <;> rfl
@[simp] theorem State.tick_i (s : State) : s.tick.i = s.i := by
  unfold State.tick; split <;> rfl
@[simp] theorem State.tick_pc (s : State) : s.tick.pc = s.pc := by
  unfold State.tick; split <;> rfl
@[simp] theorem State.tick_sp (s : State) : s.tick.sp = s.sp := by
  unfold State.tick; split <;> rfl
@[simp] theorem State.tick_stack (s : State) : s.tick.stack = s.stack := by
  unfold State.tick; split <;> rfl
@[simp] theorem State.tick_fb (s : State) : s.tick.fb = s.fb := by
  unfold State.tick; split <;> rfl
@[simp] theorem State.tick_mem (s : State) : s.tick.mem = s.mem := by
  unfold State.tick; split <;> rfl
@[simp] theorem State.tick_inp (s : State) : s.tick.inp = s.inp := by
  unfold State.tick; split <;> rfl
@[simp] theorem State.tick_pending (s : State) : s.tick.pending = s.pending := by
  unfold State.tick; split <;> rfl
@[simp] theorem State.tick_cycle (s : State) : s.tick.cycle = s.cycle := by
  unfold State.tick; split <;> rfl

@[simp] theorem State.tick_dt (s : State) : s.tick.dt = if s.inp.tickEn then countDown s.dt else s.dt := by
  unfold State.tick; split <;> rfl

@[simp] theorem State.tick_st (s : State) : s.tick.st = if s.inp.tickEn then countDown s.st else s.st := by
  unfold State.tick; split <;> rfl

@[simp] theorem State.tick_status (s : State) :
    s.tick.status = { s.status with beep := s.inp.tickEn && decide (s.st = 0x01#8) } := by
  unfold State.tick; split <;> simp [*]

/-- The tick takes a counter down by 1 and never below 0 (R123). -/
theorem countDown_toNat (b : Byte) : (countDown b).toNat = b.toNat - 1 := by
  have hb := b.isLt
  unfold countDown
  split
  · simp [*]
  · have : b.toNat ≠ 0 := fun h => ‹¬b = 0x00#8› (BitVec.eq_of_toNat_eq (by simpa using h))
    simp only [BitVec.toNat_sub, BitVec.toNat_ofNat]
    omega

/-! ## Registers -/

/-- A register after a write of one (R22: distinct registers are distinct storage). -/
@[simp] theorem State.setReg_reg (s : State) (x r : Nibble) (b : Byte) :
    (s.setReg x b).reg r = if r = x then b else s.reg r := by
  unfold State.setReg State.reg
  by_cases h : r = x
  · subst h; simp
  · have : x.toNat ≠ r.toNat := fun e => h (BitVec.eq_of_toNat_eq e.symm)
    simp [h, this]

/-- An update that leaves the register file leaves every register. -/
theorem State.reg_congr {s t : State} (h : t.v = s.v) (r : Nibble) : t.reg r = s.reg r := by
  simp [State.reg, h]

@[simp] theorem State.setPc_reg (s : State) (a : Half) (r : Nibble) : (s.setPc a).reg r = s.reg r := rfl
@[simp] theorem State.setI_reg (s : State) (a : Half) (r : Nibble) : (s.setI a).reg r = s.reg r := rfl
@[simp] theorem State.advance_reg (s : State) (r : Nibble) : s.advance.reg r = s.reg r := rfl
@[simp] theorem State.report_reg (s : State) (c : CycleStatus) (e : Cause) (n : BitVec 17) (r : Nibble) :
    (s.report c e n).reg r = s.reg r := rfl
@[simp] theorem State.sampleInputs_reg (s : State) (r : Nibble) : s.sampleInputs.reg r = s.reg r := rfl
@[simp] theorem State.tick_reg (s : State) (r : Nibble) : s.tick.reg r = s.reg r := State.reg_congr (by simp) r

/-- After VF <- flag and V[x] <- result, V[x] is the result, and VF the flag unless x is VF (R190). -/
@[simp] theorem State.setFlagThenReg_reg (s : State) (flag : Bool) (x r : Nibble) (b : Byte) :
    (s.setFlagThenReg flag x b).reg r = if r = x then b else if r = vF then flagByte flag else s.reg r := by
  simp [State.setFlagThenReg]

/-- The registers a list of bytes is written to, from register k on. -/
theorem setRegsFrom_getElem (v : Vector Byte 16) (k : Nat) (bs : List Byte) (r : Nat) (hr : r < 16) :
    (setRegsFrom v k bs)[r] = if k ≤ r ∧ r < k + bs.length then bs.getD (r - k) 0x00#8 else v[r] := by
  induction bs generalizing v k with
  | nil => rw [setRegsFrom, if_neg (by rw [List.length_nil]; omega)]
  | cons b bs ih =>
    simp only [setRegsFrom, ih, List.length_cons, Vector.getElem_setIfInBounds]
    by_cases hk : k = r
    · subst hk; simp
    · by_cases hlt : k ≤ r ∧ r < k + (bs.length + 1)
      · have h1 : k + 1 ≤ r ∧ r < k + 1 + bs.length := by omega
        have h2 : r - k = (r - (k + 1)) + 1 := by omega
        simp [hlt, h1, h2]
      · have h1 : ¬ (k + 1 ≤ r ∧ r < k + 1 + bs.length) := by omega
        rw [if_neg h1, if_neg hlt, if_neg hk]

/-- A register after FX65's writes (R239). -/
@[simp] theorem State.setRegs_reg (s : State) (bs : List Byte) (r : Nibble) :
    (s.setRegs bs).reg r = if r.toNat < bs.length then bs.getD r.toNat 0x00#8 else s.reg r := by
  simp [State.reg, setRegsFrom_getElem]

/-- The bytes FX55 stores: V[r] at place r (R238). -/
theorem State.regsUpTo_length (s : State) (x : Nibble) : (s.regsUpTo x).length = x.toNat + 1 := by
  have := x.isLt
  simp [State.regsUpTo]; omega

theorem State.regsUpTo_getD (s : State) (x r : Nibble) (h : r.toNat ≤ x.toNat) :
    (s.regsUpTo x).getD r.toNat 0x00#8 = s.reg r := by
  have h1 : r.toNat < x.toNat + 1 := by omega
  have h2 := r.isLt
  simp [State.regsUpTo, State.reg, List.getD_eq_getElem?_getD, h1, h2]

/-! ## Call stack (R30, R31) -/

/-- Push: fails exactly on a full stack; else the entry at SP is the address, every other entry and everything but SP
and STACK is kept. -/
theorem State.push_cases (s : State) (a : Half) :
    (s.sp.val = 16 ∧ s.push a = none) ∨
    ∃ t, ∃ h : s.sp.val < 16, s.push a = some t ∧ t.sp.val = s.sp.val + 1 ∧
      t = { s with stack := s.stack.set s.sp.val a h, sp := t.sp } ∧
      ∀ k : Fin 16, t.stackAt k = if k.val = s.sp.val then a else s.stackAt k := by
  have hlt := s.sp.isLt
  by_cases h : s.sp.val < 16
  · refine .inr ⟨{ s with stack := s.stack.set s.sp.val a h, sp := ⟨s.sp.val + 1, Nat.succ_lt_succ h⟩ }, h, ?_, rfl, rfl, ?_⟩
    · simp [State.push, h]
    · intro k
      simp only [State.stackAt, Vector.getElem_set]
      by_cases e : s.sp.val = k.val
      · simp [e]
      · simp [e, Ne.symm e]
  · exact .inl ⟨by omega, by simp [State.push, h]⟩

/-- Pop: fails exactly on an empty stack; else it gives the newest entry and takes SP down by 1, and keeps everything
else, the entry too. -/
theorem State.pop_cases (s : State) :
    (s.sp.val = 0 ∧ s.pop = none) ∨
    0 < s.sp.val ∧ ∃ hk : s.sp.val - 1 < 16, ∃ t,
      s.pop = some (s.stackAt ⟨s.sp.val - 1, hk⟩, t) ∧ t.sp.val = s.sp.val - 1 ∧ t = { s with sp := t.sp } := by
  by_cases h : 0 < s.sp.val
  · have hk : s.sp.val - 1 < 16 := by have := s.sp.isLt; omega
    exact .inr ⟨h, hk, { s with sp := ⟨s.sp.val - 1, Nat.lt_succ_of_lt hk⟩ }, by simp [State.pop, h, State.stackAt], rfl, rfl⟩
  · exact .inl ⟨by omega, by simp [State.pop, h]⟩

end Sys2Proof.Machine
end

