-- ==== Sys2Proof/Laws/Step.lean ====
section
/-! SUPPORT. What a meaning and a step can end in, once: every meaning completes, waits or raises a fatal error on the
state it began in; every step is one of three cases. -/

namespace Sys2Proof.Machine

/-- What `exec` answers: the instruction completes in `u` with its writes, waits, or raises a fatal error, the last two
on the state it began in. -/
inductive ExecShape (s : State) (r : Result) : Prop where
  | completes (u : State) (h : r = complete u) : ExecShape s r
  | waits (h : r = waitForKey s) : ExecShape s r
  | raises (cause : Cause) (info : BitVec 17) (real : cause ≠ .none ∧ cause ≠ .decode)
      (h : r = raiseFatal cause info s) : ExecShape s r

theorem exec_shape (i : Instr) (s : State) : ExecShape s (exec i s) := by
  cases i with
  | ret x y =>
    rcases State.pop_cases s with ⟨_, h⟩ | ⟨_, _, t, h, _⟩
    · exact .raises .stackUnderflow (infoOfHalf (encode (.ret x y))) (by decide) (by simp only [exec, execRet, h])
    · exact .completes _ (by simp only [exec, execRet, h]; rfl)
  | callAddr nnn =>
    rcases State.push_cases s (s.pc + 2#16) with ⟨_, h⟩ | ⟨t, _, h, _⟩
    · exact .raises .stackOverflow (infoOfHalf (encode (.callAddr nnn))) (by decide)
        (by simp only [exec, execCallAddr, h])
    · exact .completes _ (by simp only [exec, execCallAddr, h]; rfl)
  | drwVxVyN x y n =>
    simp only [exec, execDrwVxVyN]
    split
    · exact .raises _ _ (by decide) rfl
    · exact .completes _ rfl
  | ldVxK x y =>
    simp only [exec, execLdVxK]
    split
    · exact .waits rfl
    · exact .completes _ rfl
  | ldBVx x y =>
    simp only [exec, execLdBVx]
    split
    · exact .raises _ _ (by decide) rfl
    · exact .completes _ rfl
  | ldMemIVx x =>
    simp only [exec, execLdMemIVx]
    split
    · exact .raises _ _ (by decide) rfl
    · exact .completes _ rfl
  | ldVxMemI x =>
    simp only [exec, execLdVxMemI]
    split
    · exact .raises _ _ (by decide) rfl
    · exact .completes _ rfl
  | _ => exact .completes _ rfl

/-- The three cases of a cycle (R110, R113, R118). -/
theorem step_cases {s t : State} (h : step s = .next t) :
    (s.fetch = none ∧ t = (s.report .fatalError .fetchRange (infoOfHalf s.pc)).endCycle) ∨
    (∃ op e, s.fetch = some op ∧ decode op = .error e ∧
      t = (s.advance.report .decodeError .decode (infoOfHalf op)).endCycle) ∨
    (∃ op i u, s.fetch = some op ∧ decode op = .ok i ∧ exec i s = .next u ∧ t = u.endCycle) := by
  unfold step executeCycle at h
  cases hf : s.fetch with
  | none =>
    simp only [hf, raiseFetch, raiseFatal, finish, Host.Outcome.next.injEq] at h
    exact .inl ⟨rfl, h.symm⟩
  | some op =>
    cases hd : decode op with
    | error e =>
      simp only [hf, hd, raiseDecode, finish, Host.Outcome.next.injEq] at h
      exact .inr (.inl ⟨op, e, rfl, hd, h.symm⟩)
    | ok i =>
      simp only [hf, hd] at h
      cases he : exec i s with
      | next u =>
        simp only [he, finish, Host.Outcome.next.injEq] at h
        exact .inr (.inr ⟨op, i, u, rfl, hd, he, h.symm⟩)
      | fault f => exact nomatch f
      | refused r => rw [he] at h; exact nomatch h

/-- A fetch succeeds exactly where PC + 1 is an address, and gives the two bytes there (R112, R113). -/
theorem fetch_eq (s : State) : s.fetch =
    if s.pc.toNat + 1 < 0x1000 then some (mergeBytes (s.mem.read s.pc.toNat) (s.mem.read (s.pc.toNat + 1)))
    else none := rfl

/-- A fetch reads PC and MEM and nothing else. -/
theorem fetch_congr {s t : State} (hpc : t.pc = s.pc) (hmem : t.mem = s.mem) : t.fetch = s.fetch := by
  simp [fetch_eq, hpc, hmem]

end Sys2Proof.Machine
end

