-- ==== Sys2Proof/Tests/Slice0.lean ====
section
/-! SUPPORT. Tests of the model against words and vectors of the spec (the identifier of a vector of
spec/95_test_vectors.md stands in a test's docstring), and for each statement with hypotheses a witness that meets
them, at the boundary of each of its clauses. -/

namespace Sys2Proof.Tests

open Sys2Proof Sys2Proof.Machine

/-! ## States -/

/-- The start state of the vectors: reset, the opcode at PC, no key, rnd 0, tick_en 0. -/
def loaded (op : Half) : State :=
  { State.reset.placeOpcode op with inp := { keys := 0x0000#16, rnd := 0x00#8, tickEn := false } }

/-- The same with the PC somewhere else. -/
def loadedAt (pc op : Half) : State :=
  { ({ State.reset with pc := pc } : State).placeOpcode op with
    inp := { keys := 0x0000#16, rnd := 0x00#8, tickEn := false } }

/-- The state with `n` stack entries in use, entry k holding `a`. -/
def withEntry (s : State) (n : Fin 17) (k : Fin 16) (a : Half) : State :=
  { s with sp := n, stack := s.stack.set k.val a k.isLt }

/-- The state with the byte in memory. -/
def withByte (s : State) (a : Nat) (b : Byte) : State := { s with mem := s.mem.write a b }

/-- The state with the keys of the list pressed. -/
def withKeys (s : State) (ks : List Nat) : State :=
  { s with inp := { s.inp with keys := ks.foldl (fun m k => m ||| BitVec.twoPow 16 k) 0#16 } }

/-- The state with tick_en = 1. -/
def ticking (s : State) : State := { s with inp := { s.inp with tickEn := true } }

/-- The step answers a next state of which the test holds. -/
def after (s : State) (test : State → Bool) : Bool :=
  match step s with
  | .next t => test t
  | _ => false

/-- STATUS is this one. -/
def reported (t : State) (status : CycleStatus) (cause : Cause) (info : BitVec 17) (beep : Bool) : Bool :=
  decide (t.status = { status := status, cause := cause, info := info, beep := beep })

/-- STATUS is COMPLETED, with no beep. -/
def completed (t : State) : Bool := reported t .completed .none 0#17 false

/-! ## Well-formedness: an alias is refused, its canonical form is not -/

theorem test_wf_cls : (Instr.cls 0x0#4 0x0#4).wellFormed = false ∧ (Instr.cls 0x0#4 0xE#4).wellFormed = true := by decide
theorem test_wf_cls_x : (Instr.cls 0x1#4 0xE#4).wellFormed = false := by decide
theorem test_wf_ret : (Instr.ret 0x0#4 0x0#4).wellFormed = false ∧ (Instr.ret 0x0#4 0xE#4).wellFormed = true := by decide
theorem test_wf_ret_x : (Instr.ret 0x1#4 0xE#4).wellFormed = false := by decide
theorem test_wf_se : (Instr.seVxVy 0x1#4 0x2#4 0x7#4).wellFormed = false ∧ (Instr.seVxVy 0x1#4 0x2#4 0x0#4).wellFormed = true := by decide
theorem test_wf_sne : (Instr.sneVxVy 0x1#4 0x2#4 0x1#4).wellFormed = false ∧ (Instr.sneVxVy 0x1#4 0x2#4 0x0#4).wellFormed = true := by decide
theorem test_wf_skp : (Instr.skpVx 0x5#4 0x0#4).wellFormed = false ∧ (Instr.skpVx 0x5#4 0x9#4).wellFormed = true := by decide
theorem test_wf_sknp : (Instr.sknpVx 0x5#4 0x9#4).wellFormed = false ∧ (Instr.sknpVx 0x5#4 0xA#4).wellFormed = true := by decide
theorem test_wf_ldVxDt : (Instr.ldVxDt 0x5#4 0x1#4).wellFormed = false ∧ (Instr.ldVxDt 0x5#4 0x0#4).wellFormed = true := by decide
theorem test_wf_ldVxK : (Instr.ldVxK 0x5#4 0x1#4).wellFormed = false ∧ (Instr.ldVxK 0x5#4 0x0#4).wellFormed = true := by decide
theorem test_wf_ldStVx : (Instr.ldStVx 0x5#4 0x0#4).wellFormed = false ∧ (Instr.ldStVx 0x5#4 0x1#4).wellFormed = true := by decide
theorem test_wf_addIVx : (Instr.addIVx 0x5#4 0x0#4).wellFormed = false ∧ (Instr.addIVx 0x5#4 0x1#4).wellFormed = true := by decide
theorem test_wf_ldFVx : (Instr.ldFVx 0x5#4 0x0#4).wellFormed = false ∧ (Instr.ldFVx 0x5#4 0x2#4).wellFormed = true := by decide
theorem test_wf_ldBVx : (Instr.ldBVx 0x5#4 0x0#4).wellFormed = false ∧ (Instr.ldBVx 0x5#4 0x3#4).wellFormed = true := by decide

/-! ## Decoding and encoding: words written out from the patterns of 30_encoding.md R99, bit 15 first -/

/-- The word decodes to the instruction and the instruction encodes to the word. -/
def coded (w : Half) (i : Instr) : Bool := decide (decode w = .ok i) && decide (encode i = w)

theorem test_code_cls : coded 0b0000000011100000#16 (.cls 0x0#4 0xE#4) = true := by decide
theorem test_code_ret : coded 0b0000000011101110#16 (.ret 0x0#4 0xE#4) = true := by decide
theorem test_code_jpAddr : coded 0b0001101010111100#16 (.jpAddr 0xABC#12) = true := by decide
theorem test_code_callAddr : coded 0b0010101010111100#16 (.callAddr 0xABC#12) = true := by decide
theorem test_code_seVxByte : coded 0b0011001101000010#16 (.seVxByte 0x3#4 0x42#8) = true := by decide
theorem test_code_sneVxByte : coded 0b0100001101000010#16 (.sneVxByte 0x3#4 0x42#8) = true := by decide
theorem test_code_seVxVy : coded 0b0101000100100000#16 (.seVxVy 0x1#4 0x2#4 0x0#4) = true := by decide
theorem test_code_ldVxByte : coded 0b0110101000000111#16 (.ldVxByte 0xA#4 0x07#8) = true := by decide
theorem test_code_addVxByte : coded 0b0111000111111110#16 (.addVxByte 0x1#4 0xFE#8) = true := by decide
theorem test_code_ldVxVy : coded 0b1000000100100000#16 (.ldVxVy 0x1#4 0x2#4) = true := by decide
theorem test_code_orVxVy : coded 0b1000000100100001#16 (.orVxVy 0x1#4 0x2#4) = true := by decide
theorem test_code_andVxVy : coded 0b1000000100100010#16 (.andVxVy 0x1#4 0x2#4) = true := by decide
theorem test_code_xorVxVy : coded 0b1000000100100011#16 (.xorVxVy 0x1#4 0x2#4) = true := by decide
theorem test_code_addVxVy : coded 0b1000000100100100#16 (.addVxVy 0x1#4 0x2#4) = true := by decide
theorem test_code_subVxVy : coded 0b1000000100100101#16 (.subVxVy 0x1#4 0x2#4) = true := by decide
theorem test_code_shrVxVy : coded 0b1000000100100110#16 (.shrVxVy 0x1#4 0x2#4) = true := by decide
theorem test_code_subnVxVy : coded 0b1000000100100111#16 (.subnVxVy 0x1#4 0x2#4) = true := by decide
theorem test_code_shlVxVy : coded 0b1000000100101110#16 (.shlVxVy 0x1#4 0x2#4) = true := by decide
theorem test_code_sneVxVy : coded 0b1001000100100000#16 (.sneVxVy 0x1#4 0x2#4 0x0#4) = true := by decide
theorem test_code_ldIAddr : coded 0b1010001100000001#16 (.ldIAddr 0x301#12) = true := by decide
theorem test_code_jpV0Addr : coded 0b1011001100000001#16 (.jpV0Addr 0x301#12) = true := by decide
theorem test_code_rndVxByte : coded 0b1100001100001111#16 (.rndVxByte 0x3#4 0x0F#8) = true := by decide
theorem test_code_drwVxVyN : coded 0b1101000100100011#16 (.drwVxVyN 0x1#4 0x2#4 0x3#4) = true := by decide
theorem test_code_skpVx : coded 0b1110010110011110#16 (.skpVx 0x5#4 0x9#4) = true := by decide
theorem test_code_sknpVx : coded 0b1110010110100001#16 (.sknpVx 0x5#4 0xA#4) = true := by decide
theorem test_code_ldVxDt : coded 0b1111001100000111#16 (.ldVxDt 0x3#4 0x0#4) = true := by decide
theorem test_code_ldVxK : coded 0b1111010100001010#16 (.ldVxK 0x5#4 0x0#4) = true := by decide
theorem test_code_ldDtVx : coded 0b1111010000010101#16 (.ldDtVx 0x4#4) = true := by decide
theorem test_code_ldStVx : coded 0b1111010000011000#16 (.ldStVx 0x4#4 0x1#4) = true := by decide
theorem test_code_addIVx : coded 0b1111001000011110#16 (.addIVx 0x2#4 0x1#4) = true := by decide
theorem test_code_ldFVx : coded 0b1111010000101001#16 (.ldFVx 0x4#4 0x2#4) = true := by decide
theorem test_code_ldBVx : coded 0b1111101000110011#16 (.ldBVx 0xA#4 0x3#4) = true := by decide
theorem test_code_ldMemIVx : coded 0b1111001001010101#16 (.ldMemIVx 0x2#4) = true := by decide
theorem test_code_ldVxMemI : coded 0b1111001001100101#16 (.ldVxMemI 0x2#4) = true := by decide

/-- P-dec: the fields of 0xD4A7. -/
theorem test_fields : (fieldC 0xD4A7#16, fieldX 0xD4A7#16, fieldY 0xD4A7#16, fieldN 0xD4A7#16, fieldNN 0xD4A7#16,
    fieldNNN 0xD4A7#16) = (0xD#4, 0x4#4, 0xA#4, 0x7#4, 0xA7#8, 0x4A7#12) := by decide

/-- Y4 to Y13: one or more words of each part of the decode-error space, each rejected under its name. -/
theorem test_reject_class0 : decode 0x0123#16 = .error .class0Selector ∧ decode 0x00E1#16 = .error .class0Selector := by decide
theorem test_reject_class8 : decode 0x8008#16 = .error .class8Selector ∧ decode 0x800F#16 = .error .class8Selector := by decide
theorem test_reject_classE : decode 0xE000#16 = .error .classESelector ∧ decode 0xE09F#16 = .error .classESelector := by decide
theorem test_reject_classF : decode 0xF000#16 = .error .classFSelector ∧ decode 0xF10C#16 = .error .classFSelector := by decide
theorem test_reject_classF5 : decode 0xF025#16 = .error .classF5Selector := by decide
theorem test_reject_short : decodeBytes [0x60#8] = .error .tooFewBytes := by decide

/-- F3, F16, D2: aliases. -/
theorem test_alias_words : decode 0x000E#16 = .ok (.ret 0x0#4 0x0#4) ∧ decode 0x5127#16 = .ok (.seVxVy 0x1#4 0x2#4 0x7#4)
    ∧ decode 0x0000#16 = .ok (.cls 0x0#4 0x0#4) := by decide

/-- Bytes in memory are big-endian (R66), and the bytes after an instruction are left. -/
theorem test_bytes : decodeBytes [0x6A#8, 0x07#8, 0x12#8] = .ok (.ldVxByte 0xA#4 0x07#8, [0x12#8])
    ∧ encodeBytes (.ldVxByte 0xA#4 0x07#8) = [0x6A#8, 0x07#8] := by decide

theorem test_tableWord : decodeTableWord 16 0x6A07 = some (.ldVxByte 0xA#4 0x07#8) ∧ decodeTableWord 16 0x8008 = none := by decide

theorem test_fetchWord : (State.reset.withFetchWord 16 0x6A07).fetch = some 0x6A07#16 := by decide

/-! ## The cycle -/

/-- Y1. -/
theorem test_last_opcode : after (loadedAt 0x0FFE#16 0x6011#16) (fun t => t.reg 0x0#4 == 0x11#8 && t.pc == 0x1000#16 && completed t) = true := by decide
/-- Y2. -/
theorem test_fetch_range : after { loaded 0x6011#16 with pc := 0x0FFF#16 } (fun t =>
    t.pc == 0x0FFF#16 && reported t .fatalError .fetchRange 0x00FFF#17 false) = true := by decide
/-- Y4. -/
theorem test_decode_error : after (loaded 0x0123#16) (fun t => t.pc == 0x0202#16 && reported t .decodeError .decode 0x00123#17 false) = true := by decide
/-- Y14. -/
theorem test_tick_on_error : after (ticking { loaded 0x0123#16 with dt := 0x01#8, st := 0x01#8 }) (fun t =>
    t.dt == 0x00#8 && t.st == 0x00#8 && reported t .decodeError .decode 0x00123#17 true) = true := by decide
/-- Y15. -/
theorem test_no_tick : after { loaded 0x6000#16 with dt := 0x01#8, st := 0x01#8 } (fun t =>
    t.dt == 0x01#8 && t.st == 0x01#8 && completed t) = true := by decide
/-- T10. -/
theorem test_no_beep_from_zero : after (ticking (loaded 0x6000#16)) (fun t => t.st == 0x00#8 && completed t) = true := by decide
/-- The word of STATUS of Y14, from the layout of R37. -/
theorem test_status_word : (Status.mk .decodeError .decode 0x00123#17 true).word = 0b0010000000010010001100110#25 := by decide

/-! ## Control flow -/

/-- F1. -/
theorem test_ret : after (withEntry (loadedAt 0x0212#16 0x00EE#16) 1 0 0x0206#16) (fun t =>
    t.pc == 0x0206#16 && t.sp.val == 0 && t.stackAt 0 == 0x0206#16 && completed t) = true := by decide
/-- F2. -/
theorem test_ret_empty : after (loaded 0x00EE#16) (fun t =>
    t.pc == 0x0200#16 && t.sp.val == 0 && reported t .fatalError .stackUnderflow 0x000EE#17 false) = true := by decide
/-- F4. -/
theorem test_jp : after (loaded 0x1234#16) (fun t => t.pc == 0x0234#16 && completed t) = true := by decide
/-- F8. -/
theorem test_call : after { loadedAt 0x0300#16 0x2ABC#16 with sp := 15 } (fun t =>
    t.stackAt 15 == 0x0302#16 && t.sp.val == 16 && t.pc == 0x0ABC#16 && completed t) = true := by decide
/-- F9. -/
theorem test_call_full : after { loadedAt 0x0300#16 0x2ABC#16 with sp := 16 } (fun t =>
    t.stackAt 15 == 0x0000#16 && t.sp.val == 16 && t.pc == 0x0300#16
      && reported t .fatalError .stackOverflow 0x02ABC#17 false) = true := by decide
/-- F10, F11. -/
theorem test_se_byte : after ((loaded 0x3342#16).setReg 0x3#4 0x42#8) (fun t => t.pc == 0x0204#16 && completed t) = true := by decide
theorem test_se_byte_not : after ((loaded 0x3343#16).setReg 0x3#4 0x42#8) (fun t => t.pc == 0x0202#16 && completed t) = true := by decide
/-- F13, F14. -/
theorem test_sne_byte_not : after ((loaded 0x4342#16).setReg 0x3#4 0x42#8) (fun t => t.pc == 0x0202#16 && completed t) = true := by decide
theorem test_sne_byte : after ((loaded 0x4300#16).setReg 0x3#4 0x42#8) (fun t => t.pc == 0x0204#16 && completed t) = true := by decide
/-- F16 (an alias), F17. -/
theorem test_se_reg : after (((loaded 0x5127#16).setReg 0x1#4 0x10#8).setReg 0x2#4 0x10#8) (fun t => t.pc == 0x0204#16 && completed t) = true := by decide
theorem test_se_reg_not : after (((loaded 0x5120#16).setReg 0x1#4 0x10#8).setReg 0x2#4 0x11#8) (fun t => t.pc == 0x0202#16 && completed t) = true := by decide
/-- F18, F19. -/
theorem test_sne_reg : after (((loaded 0x9120#16).setReg 0x1#4 0x10#8).setReg 0x2#4 0x11#8) (fun t => t.pc == 0x0204#16 && completed t) = true := by decide
theorem test_sne_reg_same : after ((loaded 0x9110#16).setReg 0x1#4 0x10#8) (fun t => t.pc == 0x0202#16 && completed t) = true := by decide
/-- F20, F22. -/
theorem test_jp_v0 : after ((loaded 0xB300#16).setReg 0x0#4 0x10#8) (fun t => t.pc == 0x0310#16 && completed t) = true := by decide
theorem test_jp_v0_largest : after ((loaded 0xBFFF#16).setReg 0x0#4 0xFF#8) (fun t => t.pc == 0x10FE#16 && completed t) = true := by decide
/-- F24, F25. -/
theorem test_skp_low_nibble : after (withKeys ((loaded 0xE59E#16).setReg 0x5#4 0x13#8) [3]) (fun t => t.pc == 0x0204#16 && completed t) = true := by decide
theorem test_skp_not : after (withKeys ((loaded 0xE59E#16).setReg 0x5#4 0x03#8) [4]) (fun t => t.pc == 0x0202#16 && completed t) = true := by decide
/-- F26, F27. -/
theorem test_sknp : after ((loaded 0xE5A1#16).setReg 0x5#4 0x03#8) (fun t => t.pc == 0x0204#16 && completed t) = true := by decide
theorem test_sknp_not : after (withKeys ((loaded 0xE5A1#16).setReg 0x5#4 0x03#8) [3]) (fun t => t.pc == 0x0202#16 && completed t) = true := by decide

/-! ## Immediate loads, immediate add, index load, random -/

/-- S1. -/
theorem test_ld_byte : after (loaded 0x6A07#16) (fun t => t.reg 0xA#4 == 0x07#8 && t.pc == 0x0202#16 && completed t) = true := by decide
/-- L4, L5. -/
theorem test_add_byte_wraps : after (((loaded 0x7101#16).setReg 0x1#4 0xFF#8).setReg vF 0x55#8) (fun t =>
    t.reg 0x1#4 == 0x00#8 && t.reg vF == 0x55#8 && t.pc == 0x0202#16 && completed t) = true := by decide
theorem test_add_byte_vf : after ((loaded 0x7F01#16).setReg vF 0xFF#8) (fun t => t.reg vF == 0x00#8 && completed t) = true := by decide
/-- L7. -/
theorem test_ld_i : after (loaded 0xAFFF#16) (fun t => t.i == 0x0FFF#16 && t.pc == 0x0202#16 && completed t) = true := by decide
/-- L8. -/
theorem test_rnd : after { loaded 0xC30F#16 with inp := { keys := 0x0000#16, rnd := 0xB6#8, tickEn := false } } (fun t =>
    t.reg 0x3#4 == 0x06#8 && t.pc == 0x0202#16 && completed t) = true := by decide

/-! ## ALU -/

/-- A1. -/
theorem test_ld_reg : after ((loaded 0x8120#16).setReg 0x2#4 0x7E#8) (fun t => t.reg 0x1#4 == 0x7E#8 && t.pc == 0x0202#16 && completed t) = true := by decide
/-- A2. -/
theorem test_or : after ((((loaded 0x8121#16).setReg 0x1#4 0xF0#8).setReg 0x2#4 0x0F#8).setReg vF 0x77#8) (fun t =>
    t.reg 0x1#4 == 0xFF#8 && t.reg vF == 0x77#8 && completed t) = true := by decide
/-- A3. -/
theorem test_and : after (((loaded 0x8122#16).setReg 0x1#4 0xF0#8).setReg 0x2#4 0x3C#8) (fun t => t.reg 0x1#4 == 0x30#8 && completed t) = true := by decide
/-- A4. -/
theorem test_xor : after (((loaded 0x8123#16).setReg 0x1#4 0xF0#8).setReg 0x2#4 0x3C#8) (fun t => t.reg 0x1#4 == 0xCC#8 && completed t) = true := by decide
/-- A10, A11. -/
theorem test_add_x_is_vf : after (((loaded 0x8F14#16).setReg vF 0x80#8).setReg 0x1#4 0x80#8) (fun t => t.reg vF == 0x00#8 && completed t) = true := by decide
theorem test_add_y_is_vf : after (((loaded 0x81F4#16).setReg 0x1#4 0x01#8).setReg vF 0xFF#8) (fun t =>
    t.reg 0x1#4 == 0x00#8 && t.reg vF == 0x01#8 && completed t) = true := by decide
/-- A12, A13. -/
theorem test_sub_borrow : after (((loaded 0x8125#16).setReg 0x1#4 0x05#8).setReg 0x2#4 0x07#8) (fun t =>
    t.reg 0x1#4 == 0xFE#8 && t.reg vF == 0x00#8 && completed t) = true := by decide
theorem test_sub_equal : after (((loaded 0x8125#16).setReg 0x1#4 0x05#8).setReg 0x2#4 0x05#8) (fun t =>
    t.reg 0x1#4 == 0x00#8 && t.reg vF == 0x01#8 && completed t) = true := by decide
/-- A19, A20. -/
theorem test_shr_ignores_y : after (((loaded 0x8126#16).setReg 0x1#4 0x05#8).setReg 0x2#4 0xFF#8) (fun t =>
    t.reg 0x1#4 == 0x02#8 && t.reg vF == 0x01#8 && completed t) = true := by decide
theorem test_shr_vf : after ((loaded 0x8F06#16).setReg vF 0x02#8) (fun t => t.reg vF == 0x01#8 && completed t) = true := by decide
/-- A21, A22. -/
theorem test_subn : after (((loaded 0x8127#16).setReg 0x1#4 0x05#8).setReg 0x2#4 0x07#8) (fun t =>
    t.reg 0x1#4 == 0x02#8 && t.reg vF == 0x01#8 && completed t) = true := by decide
theorem test_subn_borrow : after ((loaded 0x8127#16).setReg 0x1#4 0x01#8) (fun t =>
    t.reg 0x1#4 == 0xFF#8 && t.reg vF == 0x00#8 && completed t) = true := by decide
/-- A24, A27. -/
theorem test_shl : after ((loaded 0x810E#16).setReg 0x1#4 0xC1#8) (fun t =>
    t.reg 0x1#4 == 0x82#8 && t.reg vF == 0x01#8 && completed t) = true := by decide
theorem test_shl_zero : after ((loaded 0x810E#16).setReg 0x1#4 0x7F#8) (fun t =>
    t.reg 0x1#4 == 0xFE#8 && t.reg vF == 0x00#8 && completed t) = true := by decide

/-! ## Display -/

/-- D1. -/
theorem test_cls : after { loaded 0x00E0#16 with fb := ((Framebuffer.clear.flip 0 0).flip 63 31) } (fun t =>
    decide (t.fb = Framebuffer.clear) && t.pc == 0x0202#16 && completed t) = true := by decide
/-- D5 and D6 in one: V0 = 63, V1 = 31, a 2 x 2 block across the corner. -/
theorem test_drw_wraps : after (withByte (withByte { ((loaded 0xD012#16).setReg 0x0#4 63#8).setReg 0x1#4 31#8 with i := 0x0300#16 }
    0x300 0xC0#8) 0x301 0xC0#8) (fun t =>
    decide (t.fb = (((Framebuffer.clear.flip 63 31).flip 0 31).flip 63 0).flip 0 0) && t.reg vF == 0x00#8 && completed t) = true := by decide
/-- D8, D11. -/
theorem test_drw_collision : after (withByte { loaded 0xD011#16 with i := 0x0300#16, fb := Framebuffer.clear.flip 0 0 } 0x300 0x81#8)
    (fun t => decide (t.fb = Framebuffer.clear.flip 7 0) && t.reg vF == 0x01#8 && completed t) = true := by decide
theorem test_drw_range : after { loaded 0xD013#16 with i := 0x0FFE#16, fb := Framebuffer.clear.flip 0 0 } (fun t =>
    t.pixel 0 0 && t.pc == 0x0200#16 && reported t .fatalError .memRange 0x01000#17 false) = true := by decide
/-- D14. -/
theorem test_pixel_index : (pixelIndex 0 0, pixelIndex 63 0, pixelIndex 0 1, pixelIndex 63 31) = (0, 63, 64, 2047) := by decide

/-! ## Timers and keys -/

/-- T1. -/
theorem test_ld_dt : after (ticking { loaded 0xF307#16 with dt := 0x3C#8 }) (fun t => t.reg 0x3#4 == 0x3C#8 && t.dt == 0x3B#8 && completed t) = true := by decide
/-- T3, T4. -/
theorem test_key_wait : after (ticking { loaded 0xF50A#16 with dt := 0x05#8 }) (fun t =>
    t.pc == 0x0200#16 && t.dt == 0x04#8 && reported t .waitingForKey .none 0#17 false) = true := by decide
theorem test_key_lowest : after (withKeys (loaded 0xF50A#16) [7, 3]) (fun t => t.reg 0x5#4 == 0x03#8 && t.pc == 0x0202#16 && completed t) = true := by decide
/-- T6. -/
theorem test_set_dt : after (ticking ((loaded 0xF015#16).setReg 0x0#4 0x03#8)) (fun t => t.dt == 0x02#8 && completed t) = true := by decide
/-- T8, T12. -/
theorem test_set_st_beeps : after (ticking ((loaded 0xF118#16).setReg 0x1#4 0x01#8)) (fun t =>
    t.st == 0x00#8 && reported t .completed .none 0#17 true) = true := by decide
theorem test_set_st_zero : after (ticking { loaded 0xF118#16 with st := 0x05#8 }) (fun t => t.st == 0x00#8 && completed t) = true := by decide

/-! ## Index and memory -/

/-- M5, M6. -/
theorem test_add_i_wraps : after { (loaded 0xF01E#16).setReg 0x0#4 0x01#8 with i := 0xFFFF#16 } (fun t =>
    t.i == 0x0000#16 && t.reg vF == 0x01#8 && completed t) = true := by decide
theorem test_add_i_vf : after { (loaded 0xFF1E#16).setReg vF 0x20#8 with i := 0x0100#16 } (fun t =>
    t.i == 0x0120#16 && t.reg vF == 0x00#8 && completed t) = true := by decide
/-- M8, for every FONT_BASE. -/
theorem test_ld_f : (glyphAddress 0x1A#8).toNat = Config.fontBase.val + 0x32 := by
  rw [glyphAddress_toNat]; rfl
/-- M16, M17. -/
theorem test_bcd : after { (loaded 0xFA33#16).setReg 0xA#4 123#8 with i := 0x0FFD#16 } (fun t =>
    t.mem.read 0xFFD == 0x01#8 && t.mem.read 0xFFE == 0x02#8 && t.mem.read 0xFFF == 0x03#8 && completed t) = true := by decide
theorem test_bcd_range : after { (loaded 0xFA33#16).setReg 0xA#4 1#8 with i := 0x0FFE#16 } (fun t =>
    t.mem.read 0xFFE == 0x00#8 && t.pc == 0x0200#16 && reported t .fatalError .memRange 0x01000#17 false) = true := by decide
/-- M18, M20. -/
theorem test_store : after { (((loaded 0xF155#16).setReg 0x0#4 0x11#8).setReg 0x1#4 0x22#8).setReg 0x2#4 0x33#8 with i := 0x0300#16 } (fun t =>
    t.mem.read 0x300 == 0x11#8 && t.mem.read 0x301 == 0x22#8 && t.mem.read 0x302 == 0x00#8 && t.i == 0x0300#16 && completed t) = true := by decide
theorem test_store_range : after { (loaded 0xFF55#16).setReg 0x0#4 0x11#8 with i := 0x0FF1#16 } (fun t =>
    t.mem.read 0xFF1 == 0x00#8 && reported t .fatalError .memRange 0x01000#17 false) = true := by decide
/-- M22, M23. -/
theorem test_load : after (withByte (withByte (withByte { loaded 0xF265#16 with i := 0x0300#16 } 0x300 0x01#8) 0x301 0x05#8) 0x302 0x06#8)
    (fun t => t.reg 0x0#4 == 0x01#8 && t.reg 0x1#4 == 0x05#8 && t.reg 0x2#4 == 0x06#8 && t.i == 0x0300#16 && completed t) = true := by decide
theorem test_load_vf : after (withByte { loaded 0xFF65#16 with i := 0x0300#16 } 0x30F 0x99#8) (fun t =>
    t.reg 0xE#4 == 0x00#8 && t.reg vF == 0x99#8 && completed t) = true := by decide

/-! ## Memory, reset and load -/

/-- Writing what reset left at an address takes the address out of the list again. -/
theorem test_mem_canonical : Memory.write (Memory.write (Memory.write [] 0x301 0x02#8) 0x300 0x01#8) 0x301 0x00#8 = [(0x300, 0x01#8)] := by decide
theorem test_mem_wf : Memory.wf [(0x300, 0x01#8), (0x301, 0x02#8)] = true ∧ Memory.wf [(0x301, 0x02#8), (0x300, 0x01#8)] = false
    ∧ Memory.wf [(0x300, 0x00#8)] = false ∧ Memory.wf [(0x1000, 0x01#8)] = false := by decide
theorem test_mem_order : Memory.insert [(0x200, 0x01#8), (0x300, 0x01#8)] 0x250 0x07#8
    = [(0x200, 0x01#8), (0x250, 0x07#8), (0x300, 0x01#8)] := by decide
/-- R4: with nothing loaded, the first cycle after reset runs 0x0000, an alias of CLS. -/
theorem test_reset_runs_cls : State.reset.nextInstr = some (.cls 0x0#4 0x0#4) := by decide
/-- A loaded program is fetched from PROGRAM_BASE (R293, R295). -/
theorem test_load_program : ((State.reset.loadProgram [0x6A#8, 0x07#8]).bind State.fetch) = some 0x6A07#16 := by decide

/-! ## Witnesses: for each statement with hypotheses, a state and operands that meet all of them -/

theorem witness_EncodeOfDecode : decode 0xD4A7#16 = .ok (.drwVxVyN 0x4#4 0xA#4 0x7#4) := by decide
theorem witness_AnAlias_other : ∀ gx gy, Instr.seVxVy 0x1#4 0x2#4 0x7#4 ≠ .ret gx gy := by simp
theorem witness_AnAlias_ret : 0 < ({ loaded 0x000E#16 with sp := 1 } : State).sp.val := by decide
theorem witness_StepRuns_last : (loadedAt 0x0FFE#16 0x6011#16).pc.toNat + 1 < 0x1000 ∧
    decode ((loadedAt 0x0FFE#16 0x6011#16).mem.read 0xFFE ++ (loadedAt 0x0FFE#16 0x6011#16).mem.read 0xFFF)
      = .ok (.ldVxByte 0x0#4 0x11#8) := by decide
theorem witness_StepRuns_odd : (loadedAt 0x0301#16 0x5127#16).pc.toNat + 1 < 0x1000 ∧
    decode ((loadedAt 0x0301#16 0x5127#16).mem.read 0x301 ++ (loadedAt 0x0301#16 0x5127#16).mem.read 0x302)
      = .ok (.seVxVy 0x1#4 0x2#4 0x7#4) := by decide
theorem witness_Tick_on : State.reset.inp.tickEn = true := by decide
theorem witness_Tick_off : (loaded 0x6000#16).inp.tickEn = false := by decide
theorem witness_Tick_beep : ∃ t, step (ticking { loaded 0x6000#16 with st := 0x01#8 }) = .next t ∧ t.status.beep = true :=
  ⟨_, rfl, by decide⟩
theorem witness_Tick_zero : ∃ t, exec (.ldStVx 0x1#4 0x1#4) (loaded 0xF118#16) = .next t ∧ (loaded 0xF118#16).reg 0x1#4 = 0x00#8 :=
  ⟨_, rfl, by decide⟩
theorem witness_EndOfCycle : ∃ s : State, s.pending = [{ keys := 0x0008#16, rnd := 0xB6#8, tickEn := false }] :=
  ⟨{ State.reset with pending := [{ keys := 0x0008#16, rnd := 0xB6#8, tickEn := false }] }, rfl⟩
theorem nextInstr_noop : (loaded 0x6000#16).nextInstr = some (.ldVxByte 0x0#4 0x00#8) := by decide
theorem witness_EveryCycleTicks : (∃ t, step (loaded 0x6000#16) = .next t) ∧
    (∀ x, (loaded 0x6000#16).nextInstr ≠ some (.ldDtVx x)) ∧ ∀ x g, (loaded 0x6000#16).nextInstr ≠ some (.ldStVx x g) := by
  rw [nextInstr_noop]
  exact ⟨⟨_, rfl⟩, by simp, by simp⟩
theorem witness_DecodeError : (loaded 0x0123#16).fetch = some 0x0123#16 ∧ decode 0x0123#16 = .error .class0Selector := by decide
theorem witness_FetchBeyond : 0xFFF ≤ ({ State.reset with pc := 0x0FFF#16 } : State).pc.toNat := by decide
theorem witness_Fatal : ∃ t, step { State.reset with pc := 0x1000#16 } = .next t ∧ t.status.status = .fatalError :=
  ⟨_, rfl, by decide⟩
theorem witness_Waiting : ∃ t, step (loaded 0xF50A#16) = .next t ∧ t.status.status = .waitingForKey := ⟨_, rfl, by decide⟩
theorem witness_AFatalErrorRepeats : ∃ t u, step { loaded 0x2ABC#16 with sp := 16 } = .next t ∧
    t.status.status = .fatalError ∧ step t = .next u := ⟨_, _, rfl, by decide, rfl⟩
theorem witness_Cause_fetchRange : ∃ t, step { State.reset with pc := 0x0FFF#16 } = .next t ∧ t.status.cause = .fetchRange :=
  ⟨_, rfl, by decide⟩
theorem witness_Cause_decode : ∃ t, step (loaded 0x8008#16) = .next t ∧ t.status.cause = .decode := ⟨_, rfl, by decide⟩
theorem witness_Cause_stackOverflow : ∃ t, step { loaded 0x2ABC#16 with sp := 16 } = .next t ∧ t.status.cause = .stackOverflow :=
  ⟨_, rfl, by decide⟩
theorem witness_Cause_stackUnderflow : ∃ t, step (loaded 0x00EE#16) = .next t ∧ t.status.cause = .stackUnderflow :=
  ⟨_, rfl, by decide⟩
theorem witness_Cause_memRange : ∃ t, step { loaded 0xF055#16 with i := 0x1000#16 } = .next t ∧ t.status.cause = .memRange :=
  ⟨_, rfl, by decide⟩
theorem witness_Cause_none : ∃ t, step (loaded 0x6000#16) = .next t ∧ t.status.cause = .none := ⟨_, rfl, by decide⟩
theorem witness_PcMoves_completed : ∃ t, step (loaded 0x1234#16) = .next t ∧ t.status.status = .completed := ⟨_, rfl, by decide⟩
theorem witness_PcMoves_decodeError : ∃ t, step (loaded 0x8008#16) = .next t ∧ t.status.status = .decodeError := ⟨_, rfl, by decide⟩
theorem witness_Invariant_largestPc : ({ State.reset with pc := 0x10FE#16 } : State).Inv ∧
    ∃ t, step { State.reset with pc := 0x10FE#16 } = .next t := ⟨⟨by decide, by decide, by decide⟩, _, rfl⟩
theorem witness_Invariant_store :
    ({ withEntry ((loaded 0xF055#16).setReg 0x0#4 0xAA#8) 1 0 0x1000#16 with i := 0x0FFF#16 } : State).Inv ∧
    ∃ t, step { withEntry ((loaded 0xF055#16).setReg 0x0#4 0xAA#8) 1 0 0x1000#16 with i := 0x0FFF#16 } = .next t :=
  ⟨⟨by decide, by decide, by decide⟩, _, rfl⟩
theorem witness_EveryInstruction : ∃ t, exec (.ldBVx 0xA#4 0x3#4) { State.reset with i := 0x0FFD#16 } = .next t := ⟨_, rfl⟩
theorem witness_Index_notWritten : ∃ t, exec (.ldMemIVx 0x0#4) { State.reset with i := 0x0300#16 } = .next t ∧
    (Instr.ldMemIVx 0x0#4).writesIndex = false := ⟨_, rfl, rfl⟩
theorem witness_Index_notRead : ∃ t, exec (.ldIAddr 0x300#12) State.reset = .next t ∧
    (Instr.ldIAddr 0x300#12).readsIndex = false := ⟨_, rfl, rfl⟩
theorem witness_Inputs_keys : ∃ t, exec (.skpVx 0x0#4 0x9#4) State.reset = .next t ∧
    ({ keys := 0x0000#16, rnd := 0x07#8, tickEn := false } : Inputs).keys = State.reset.inp.keys ∧
    (Instr.skpVx 0x0#4 0x9#4).readsRandom = false := ⟨_, rfl, by decide, rfl⟩
theorem witness_Inputs_random : ∃ t, exec (.rndVxByte 0x0#4 0xFF#8) State.reset = .next t ∧
    ({ keys := 0x0007#16, rnd := 0x00#8, tickEn := false } : Inputs).rnd = State.reset.inp.rnd ∧
    (Instr.rndVxByte 0x0#4 0xFF#8).readsKeys = false := ⟨_, rfl, by decide, rfl⟩
theorem witness_Return_least : ({ State.reset with sp := 1 } : State).sp.val = (0 : Fin 16).val + 1 := by decide
theorem witness_Return_greatest : ({ State.reset with sp := 16 } : State).sp.val = (15 : Fin 16).val + 1 := by decide
theorem witness_Return_empty : State.reset.sp.val = 0 := by decide
theorem witness_Call_least : State.reset.sp.val = (0 : Fin 16).val := by decide
theorem witness_Call_greatest : ({ State.reset with sp := 15 } : State).sp.val = (15 : Fin 16).val := by decide
theorem witness_Call_full : ({ State.reset with sp := 16 } : State).sp.val = 16 := by decide
theorem witness_Compare_equal : State.reset.reg 0x3#4 = 0x00#8 ∧ State.reset.reg 0x3#4 = State.reset.reg 0x4#4 := by decide
theorem witness_Compare_unequal : State.reset.reg 0x3#4 ≠ 0x42#8 ∧
    (State.reset.setReg 0x3#4 0x42#8).reg 0x3#4 ≠ (State.reset.setReg 0x3#4 0x42#8).reg 0x4#4 := by decide
theorem witness_KeySkips_pressed :
    (withKeys (State.reset.setReg 0x5#4 0x1F#8) [15]).inp.keys.getLsbD (((withKeys (State.reset.setReg 0x5#4 0x1F#8) [15]).reg 0x5#4).toNat % 16)
      = true := by decide
theorem witness_KeySkips_notPressed : State.reset.inp.keys.getLsbD ((State.reset.reg 0x5#4).toNat % 16) = false := by decide
/-- P-call: CALL 0x210 at 0x204 and 00EE at 0x210, with the stack at its last free entry. -/
theorem witness_CallThenReturn : ∃ t u, ∃ s : State, s.nextInstr = some (.callAddr 0x210#12) ∧ s.sp.val = 15 ∧
    step s = .next t ∧ t.nextInstr = some (.ret 0x0#4 0xE#4) ∧ step t = .next u :=
  ⟨_, _, withByte (withByte { loadedAt 0x0204#16 0x2210#16 with sp := 15 } 0x210 0x00#8) 0x211 0xEE#8,
    by decide, by decide, rfl, by decide, rfl⟩
theorem witness_NotVf : (0x1#4 : Nibble) ≠ vF := by decide
theorem witness_Draw_noRows : (0x0#4 : Nibble).toNat = 0 ∨
    ({ State.reset with i := 0xFFFF#16 } : State).i.toNat + (0x0#4 : Nibble).toNat ≤ 0x1000 := by decide
theorem witness_Draw_toTheEnd : (0xF#4 : Nibble).toNat = 0 ∨
    ({ State.reset with i := 0x0FF1#16 } : State).i.toNat + (0xF#4 : Nibble).toNat ≤ 0x1000 := by decide
/-- S3 and S4. -/
theorem witness_DrawingTwice : ∃ t u, ∃ s : State, s.i.toNat + (0x1#4 : Nibble).toNat ≤ 0x1000 ∧ (0x0#4 : Nibble) ≠ vF ∧
    (0x1#4 : Nibble) ≠ vF ∧ exec (.drwVxVyN 0x0#4 0x1#4 0x1#4) s = .next t ∧ exec (.drwVxVyN 0x0#4 0x1#4 0x1#4) t = .next u :=
  ⟨_, _, withByte { State.reset with i := 0x0300#16 } 0x300 0xFF#8, by decide, by decide, by decide, rfl, rfl⟩
theorem witness_ReadPort : (63 < 64) ∧ (31 < 32) := by decide
theorem witness_KeyWait_none : State.reset.inp.keys = 0#16 := by decide
theorem witness_KeyWait_some : (withKeys State.reset [15]).inp.keys ≠ 0#16 := by decide
/-- P5 in small: F015 at 0x200, F307 at 0x202, with tick_en held. -/
theorem witness_DelayTimer_next : ∃ t w, ∃ s : State, s.nextInstr = some (.ldDtVx 0x0#4) ∧ s.inp.tickEn = true ∧
    step s = .next t ∧ TickedCycles 0 t t ∧ t.nextInstr = some (.ldVxDt 0x3#4 0x0#4) ∧ step t = .next w :=
  ⟨_, _, withByte (withByte (ticking (loaded 0xF015#16)) 0x202 0xF3#8) 0x203 0x07#8,
    by decide, by decide, rfl, .none _, by decide, rfl⟩
theorem witness_TickedCycles : ∃ t, step (ticking (loaded 0x6000#16)) = .next t ∧ TickedCycles 1 (ticking (loaded 0x6000#16)) t :=
  ⟨_, rfl, .cycle (by decide)
    (by have h : (ticking (loaded 0x6000#16)).nextInstr = some (.ldVxByte 0x0#4 0x00#8) := by decide
        rw [h]; simp) rfl (.none _)⟩
theorem witness_Bcd : ({ State.reset with i := 0x0FFD#16 } : State).i.toNat + 2 < 0x1000 := by decide
theorem witness_Block : ({ State.reset with i := 0x0FF0#16 } : State).i.toNat + (0xF#4 : Nibble).toNat < 0x1000 := by decide
theorem witness_RangeErrors : 0 < (Instr.drwVxVyN 0x0#4 0x1#4 0x3#4).accessedBytes ∧
    0x1000 < ({ State.reset with i := 0x0FFE#16 } : State).i.toNat + (Instr.drwVxVyN 0x0#4 0x1#4 0x3#4).accessedBytes := by decide
theorem witness_RangeErrors_only : ∃ t, exec (.ldVxMemI 0x0#4) { State.reset with i := 0x1000#16 } = .next t ∧
    t.status.cause = .memRange := ⟨_, rfl, by decide⟩
theorem witness_LoadAfterStore : ∃ t w, ∃ s : State, s.i.toNat + (0xF#4 : Nibble).toNat < 0x1000 ∧
    exec (.ldMemIVx 0xF#4) s = .next t ∧ exec (.ldVxMemI 0xF#4) t = .next w :=
  ⟨_, _, { State.reset.setReg 0x3#4 0x42#8 with i := 0x0FF0#16 }, by decide, rfl, rfl⟩
theorem witness_StoredBytes : ∃ t u, ∃ s : State, s.i.toNat + (0x1#4 : Nibble).toNat < 0x1000 ∧
    (0x0#4 : Nibble).toNat < (0x1#4 : Nibble).toNat ∧ exec (.ldMemIVx 0x1#4) s = .next t ∧ State.mem u = t.mem ∧
    u.pc.toNat = s.effectiveAddress (0x0#4 : Nibble).toNat :=
  ⟨_, _, { State.reset.setReg 0x0#4 0x12#8 with i := 0x0FFE#16 }, by decide, by decide, rfl,
    (rfl : (State.setPc _ 0x0FFE#16).mem = _), by decide⟩
theorem witness_ResetMemory_afterFont : Config.fontBase.val + 80 < 0x1000 ∧
    ¬ (Config.fontBase.val ≤ Config.fontBase.val + 80 ∧ Config.fontBase.val + 80 < Config.fontBase.val + 80) := by
  have h := Config.fontBase.isLt
  omega
theorem witness_ResetMemory_last : 0xFFF < 0x1000 ∧
    ¬ (Config.fontBase.val ≤ 0xFFF ∧ 0xFFF < Config.fontBase.val + 80) := by
  have h := Config.fontBase.isLt
  omega
theorem witness_ProgramLoad_fits : (List.replicate 3584 (0x00#8 : Byte)).length ≤ 3584 :=
  (List.length_replicate ..).le
theorem witness_ProgramLoad_rejects : 3584 < (List.replicate 3585 (0x00#8 : Byte)).length := by
  rw [List.length_replicate]
  decide

end Sys2Proof.Tests
end

section
/-! SUPPORT. Proofs about the state (spec/10_state.md): what an instruction does to PC, I, MEM and the stack, said once;
the invariant; I and the inputs as what other instructions do not read; STATUS and reset. -/

namespace Sys2Proof.Machine

/-! ## Fetch and the end of a cycle -/

@[simp] theorem State.endCycle_pc (s : State) : s.endCycle.pc = s.pc := by simp [State.endCycle]
@[simp] theorem State.endCycle_sp (s : State) : s.endCycle.sp = s.sp := by simp [State.endCycle]
@[simp] theorem State.endCycle_stack (s : State) : s.endCycle.stack = s.stack := by simp [State.endCycle]
@[simp] theorem State.endCycle_mem (s : State) : s.endCycle.mem = s.mem := by simp [State.endCycle]
@[simp] theorem State.endCycle_status_status (s : State) : s.endCycle.status.status = s.status.status := by
  simp [State.endCycle]

/-- An update that leaves STACK leaves every entry. -/
theorem State.stackAt_congr {s t : State} (h : t.stack = s.stack) (k : Fin 16) : t.stackAt k = s.stackAt k := by
  simp [State.stackAt, h]

/-- A fetch that gives an opcode has PC + 1 below MEM_SIZE (R112, R113). -/
theorem pc_lt_of_fetch {s : State} {op : Half} (h : s.fetch = some op) : s.pc.toNat + 1 < 0x1000 := by
  rw [fetch_eq] at h
  split at h
  · assumption
  · cases h

theorem nextInstr_of_decode {s : State} {op : Half} {i : Instr} (hf : s.fetch = some op) (hd : decode op = .ok i) :
    s.nextInstr = some i := by
  simp [State.nextInstr, hf, hd, Except.toOption]

/-! ## The two ends of an instruction: it completes, or it changes STATUS alone -/

/-- An instruction that does not complete waits or is fatal, and changes nothing but STATUS (R119, R222). -/
theorem exec_cases {i : Instr} {s t : State} (h : exec i s = .next t) :
    completesIn i s t ∨ ∃ c e n, (c = .waitingForKey ∨ c = .fatalError) ∧ t = s.report c e n := by
  rcases exec_shape i s with ⟨u, hu⟩ | hu | ⟨e, n, _, hu⟩
  · obtain rfl := Host.Outcome.next.inj (hu.symm.trans h)
    exact .inl ⟨hu, rfl⟩
  · exact .inr ⟨_, _, _, .inl rfl, (Host.Outcome.next.inj (hu.symm.trans h)).symm⟩
  · exact .inr ⟨_, e, n, .inr rfl, (Host.Outcome.next.inj (hu.symm.trans h)).symm⟩

/-! ## The call stack (R30, R31) -/

/-- A successful pop: the newest entry, with SP down by 1 and the entries, I and MEM kept. -/
theorem State.of_pop_eq_some {s u : State} {a : Half} (h : s.pop = some (a, u)) :
    0 < s.sp.val ∧ (∃ hk, a = s.stackAt ⟨s.sp.val - 1, hk⟩) ∧ u.sp.val = s.sp.val - 1 ∧ u.stack = s.stack ∧
      u.i = s.i ∧ u.mem = s.mem := by
  rcases s.pop_cases with ⟨_, hn⟩ | ⟨hs, hk, v, hv, hsp, he⟩
  · rw [hn] at h
    cases h
  · obtain ⟨rfl, rfl⟩ := Prod.mk.inj (Option.some.inj (hv.symm.trans h))
    exact ⟨hs, ⟨hk, rfl⟩, hsp, by rw [he], by rw [he], by rw [he]⟩

/-- A successful push: the address at SP, SP up by 1, and the other entries, I and MEM kept. -/
theorem State.of_push_eq_some {s u : State} {a : Half} (h : s.push a = some u) :
    (∀ k : Fin 16, u.stackAt k = if k.val = s.sp.val then a else s.stackAt k) ∧ u.sp.val = s.sp.val + 1 ∧
      u.i = s.i ∧ u.mem = s.mem := by
  rcases s.push_cases a with ⟨_, hn⟩ | ⟨v, _, hv, hsp, he, hst⟩
  · rw [hn] at h
    cases h
  · obtain rfl : v = u := Option.some.inj (hv.symm.trans h)
    exact ⟨hst, hsp, by rw [he], by rw [he]⟩

/-! ## What an instruction that completes does to PC, I, MEM and the stack -/

theorem State.skipTarget_not (s : State) (b : Bool) :
    s.skipTarget (!b) = if b then s.pc + 2#16 else s.pc + 4#16 := by
  cases b <;> rfl

/-- PC goes to `Instr.nextPc` (R26); only the writers of I change it (R29); MEM is kept or is what stores leave (R62);
a stack entry in use was in use before, or is the return address CALL pushes (R30, R142). -/
structure Completion (i : Instr) (s t : State) : Prop where
  pc : t.pc = i.nextPc s
  index : i.writesIndex = false → t.i = s.i
  mem : t.mem = s.mem ∨ ∃ base bs, s.mem.storeBytes base bs = .ok t.mem
  returns : ∀ k : Fin 16, k.val < t.sp.val →
    (k.val < s.sp.val ∧ t.stackAt k = s.stackAt k) ∨ t.stackAt k = s.pc + 2#16

theorem completion_of_completesIn {i : Instr} {s t : State} (h : completesIn i s t) : Completion i s t := by
  obtain ⟨h, hc⟩ := h
  cases i with
  | ret x y =>
    simp only [exec, execRet] at h
    split at h
    · cases h
      cases hc
    · obtain ⟨hs, ⟨_, ha⟩, hsp, hst, hi, hmem⟩ := State.of_pop_eq_some ‹_›
      cases h
      refine ⟨by simp [Instr.nextPc, hs, ha], fun _ => hi, .inl hmem, fun k hk => .inl ⟨?_, State.stackAt_congr hst k⟩⟩
      have hlt := hk.trans_eq hsp
      omega
  | callAddr nnn =>
    simp only [exec, execCallAddr] at h
    split at h
    · cases h
      cases hc
    · obtain ⟨hst, hsp, hi, hmem⟩ := State.of_push_eq_some ‹_›
      cases h
      refine ⟨rfl, fun _ => hi, .inl hmem, fun k hk => ?_⟩
      have hlt := hk.trans_eq hsp
      by_cases hnew : k.val = s.sp.val
      · exact .inr ((hst k).trans (if_pos hnew))
      · exact .inl ⟨by omega, (hst k).trans (if_neg hnew)⟩
  | ldBVx _ _ | ldMemIVx _ =>
    simp only [exec, execLdBVx, execLdMemIVx] at h
    split at h
    · cases h
      cases hc
    · cases h
      exact ⟨rfl, fun _ => rfl, .inr ⟨_, _, ‹_›⟩, fun k hk => .inl ⟨hk, rfl⟩⟩
  | drwVxVyN _ _ _ | ldVxK _ _ | ldVxMemI _ =>
    simp only [exec, execDrwVxVyN, execLdVxK, execLdVxMemI] at h
    split at h
    · cases h
      cases hc
    · cases h
      exact ⟨rfl, fun _ => rfl, .inl rfl, fun k hk => .inl ⟨hk, rfl⟩⟩
  | seVxByte _ _ | sneVxByte _ _ | seVxVy _ _ _ | sneVxVy _ _ _ | skpVx _ _ =>
    cases h
    refine ⟨?_, fun _ => rfl, .inl rfl, fun k hk => .inl ⟨hk, rfl⟩⟩
    simp [Instr.nextPc, keyPressed_eq, State.skipTarget]
  | sknpVx _ _ =>
    cases h
    refine ⟨?_, fun _ => rfl, .inl rfl, fun k hk => .inl ⟨hk, rfl⟩⟩
    simp [Instr.nextPc, keyPressed_eq, State.skipTarget_not]
  | ldIAddr _ | addIVx _ _ | ldFVx _ _ =>
    cases h
    exact ⟨rfl, fun hw => Bool.noConfusion hw, .inl rfl, fun k hk => .inl ⟨hk, rfl⟩⟩
  | _ =>
    cases h
    exact ⟨rfl, fun _ => rfl, .inl rfl, fun k hk => .inl ⟨hk, rfl⟩⟩

/-! ## What keeps the invariant (R27, R142; log 6, log 10) -/

/-- From a PC that is fetched, no instruction goes beyond the largest target, 0xFFF + 255 of JP V0 (R27, R147). -/
theorem nextPc_le (i : Instr) {s : State} (hpc : s.pc.toNat + 1 < 0x1000)
    (hret : ∀ k : Fin 16, k.val < s.sp.val → (s.stackAt k).toNat ≤ 0x1000) : (i.nextPc s).toNat ≤ 0x10FE := by
  have h2 : (s.pc + 2#16).toNat ≤ 0x10FE := by bv_omega
  have h4 : (s.pc + 4#16).toNat ≤ 0x10FE := by bv_omega
  cases i with
  | ret x y =>
    simp only [Instr.nextPc]
    split
    · exact (hret _ (by simp; omega)).trans (by decide)
    · omega
  | jpAddr nnn | callAddr nnn =>
    exact (absolute_toNat nnn).le.trans (by omega)
  | jpV0Addr nnn =>
    have := nnn.isLt
    have := (s.reg 0x0#4).isLt
    exact (offsetTarget_toNat nnn (s.reg 0x0#4)).le.trans (by omega)
  | seVxByte _ _ | sneVxByte _ _ | seVxVy _ _ _ | sneVxVy _ _ _ | skpVx _ _ | sknpVx _ _ =>
    simp only [Instr.nextPc]
    split <;> assumption
  | _ => exact h2

/-- Stores that succeed keep the canonical form. -/
theorem Memory.wf_of_storeBytes {m m' : Memory} {base : Nat} {bs : List Byte} (h : m.storeBytes base bs = .ok m')
    (hm : m.wf = true) : m'.wf = true := by
  by_cases hr : bs = [] ∨ base + bs.length ≤ 0x1000
  · obtain ⟨m₁, h₁, -, hwf⟩ := Memory.storeBytes_ok m base bs hr
    obtain rfl : m₁ = m' := Except.ok.inj (h₁.symm.trans h)
    exact hwf hm
  · have h₁ := Memory.storeBytes_error m base bs (fun e => hr (.inl e)) (by omega)
    rw [h₁] at h
    cases h

/-- The invariant speaks of MEM, PC and the stack alone. -/
theorem State.Inv.congr {s t : State} (h : s.Inv) (hmem : t.mem = s.mem) (hpc : t.pc = s.pc) (hsp : t.sp = s.sp)
    (hst : t.stack = s.stack) : t.Inv where
  memCanonical := hmem ▸ h.memCanonical
  pcBounded := hpc ▸ h.pcBounded
  returnBounded k hk := State.stackAt_congr hst k ▸ h.returnBounded k (hsp ▸ hk)

theorem State.Inv.endCycle {s : State} (h : s.Inv) : s.endCycle.Inv := h.congr (by simp) (by simp) (by simp) (by simp)

/-- An instruction keeps the invariant wherever it can be fetched: a CALL pushes pc0 + 2, at most 0x1000. -/
theorem State.Inv.exec {i : Instr} {s t : State} (h : s.Inv) (hpc : s.pc.toNat + 1 < 0x1000)
    (he : exec i s = .next t) : t.Inv := by
  rcases exec_cases he with hc | ⟨_, _, _, _, rfl⟩
  · have c := completion_of_completesIn hc
    refine ⟨?_, ?_, fun k hk => ?_⟩
    · rcases c.mem with hm | ⟨_, _, hm⟩
      · exact hm ▸ h.memCanonical
      · exact Memory.wf_of_storeBytes hm h.memCanonical
    · rw [c.pc]
      exact nextPc_le i hpc h.returnBounded
    · rcases c.returns k hk with ⟨hlt, hk'⟩ | hk'
      · exact hk' ▸ h.returnBounded k hlt
      · rw [hk']
        bv_omega
  · exact h.congr rfl rfl rfl rfl

/-- Settles O21, by the three cases of a cycle: a fetch fault keeps what the invariant speaks of, a decode error only
advances PC from below 0xFFF, and an instruction keeps the invariant. -/
theorem everyStepKeepsTheInvariant : Obligations.EveryStepKeepsTheInvariant := by
  intro s t h hstep
  rcases step_cases hstep with ⟨_, rfl⟩ | ⟨op, _, hf, _, rfl⟩ | ⟨op, i, u, hf, _, he, rfl⟩
  · exact State.Inv.endCycle (h.congr rfl rfl rfl rfl)
  · have hpc := pc_lt_of_fetch hf
    refine State.Inv.endCycle ⟨h.memCanonical, ?_, h.returnBounded⟩
    simp only [State.report_pc, State.advance_pc]
    bv_omega
  · exact (h.exec (pc_lt_of_fetch hf) he).endCycle

/-- Settles O20, by the three cases of a cycle. -/
theorem pcMovesByTwoOrFourOrToTheTarget : Obligations.PcMovesByTwoOrFourOrToTheTarget := by
  intro s t hstep
  rcases step_cases hstep with ⟨_, rfl⟩ | ⟨op, _, _, _, rfl⟩ | ⟨op, i, u, hf, hd, he, rfl⟩
  · simp
  · simp
  · rcases exec_cases he with hc | ⟨_, _, _, hn, rfl⟩
    · simp [hc.2, (completion_of_completesIn hc).pc, nextInstr_of_decode hf hd]
    · rcases hn with rfl | rfl <;> simp

/-! ## What an instruction does for another I, or other inputs (R29, R46) -/

/-- An outcome with its next state changed. -/
def mapNext (f : State → State) : Result → Result
  | .next t => .next (f t)
  | .fault e => .fault e
  | .refused r => .refused r

/-- The state with other inputs in the coming cycle. -/
def State.setInp (s : State) (other : Inputs) : State := { s with inp := other }

@[simp] theorem State.setInp_inp (s : State) (other : Inputs) : (s.setInp other).inp = other := rfl
@[simp] theorem State.setInp_pc (s : State) (other : Inputs) : (s.setInp other).pc = s.pc := rfl
@[simp] theorem State.setInp_mem (s : State) (other : Inputs) : (s.setInp other).mem = s.mem := rfl
@[simp] theorem State.setInp_reg (s : State) (other : Inputs) (r : Nibble) : (s.setInp other).reg r = s.reg r := rfl
@[simp] theorem State.setInp_regsUpTo (s : State) (other : Inputs) (x : Nibble) :
    (s.setInp other).regsUpTo x = s.regsUpTo x := rfl
@[simp] theorem State.setInp_effectiveAddress (s : State) (other : Inputs) (r : Nat) :
    (s.setInp other).effectiveAddress r = s.effectiveAddress r := rfl

@[simp] theorem State.pop_setI (s : State) (a : Half) : (s.setI a).pop = s.pop.map fun p => (p.1, p.2.setI a) := by
  by_cases h : 0 < s.sp.val <;> simp [State.pop, State.setI, h]

@[simp] theorem State.pop_setInp (s : State) (other : Inputs) :
    (s.setInp other).pop = s.pop.map fun p => (p.1, p.2.setInp other) := by
  by_cases h : 0 < s.sp.val <;> simp [State.pop, State.setInp, h]

@[simp] theorem State.push_setI (s : State) (a b : Half) : (s.setI a).push b = (s.push b).map (·.setI a) := by
  by_cases h : s.sp.val < 16 <;> simp [State.push, State.setI, h]

@[simp] theorem State.push_setInp (s : State) (other : Inputs) (b : Half) :
    (s.setInp other).push b = (s.push b).map (·.setInp other) := by
  by_cases h : s.sp.val < 16 <;> simp [State.push, State.setInp, h]

/-- An instruction that does not read I does the same for every value of it, and keeps that value unless it writes I
(R29). -/
theorem exec_setI {i : Instr} (hr : i.readsIndex = false) (s : State) (a : Half) :
    exec i (s.setI a) = mapNext (fun t => if i.writesIndex then t else t.setI a) (exec i s) := by
  cases i with
  | ret x y =>
    simp only [exec, execRet, State.pop_setI]
    cases s.pop <;> rfl
  | callAddr nnn =>
    simp only [exec, execCallAddr, State.push_setI, State.setI_pc]
    cases s.push (s.pc + 2#16) <;> rfl
  | ldVxK x y =>
    simp only [exec, execLdVxK, State.setI_inp]
    cases lowestKey s.inp.keys <;> rfl
  | drwVxVyN _ _ _ | addIVx _ _ | ldBVx _ _ | ldMemIVx _ | ldVxMemI _ => exact Bool.noConfusion hr
  | _ => rfl

/-- An instruction does the same for all inputs that agree where it reads them, and keeps them (R46, R111). -/
theorem exec_setInp {i : Instr} {s : State} {other : Inputs} (hkeys : i.readsKeys = true → other.keys = s.inp.keys)
    (hrnd : i.readsRandom = true → other.rnd = s.inp.rnd) :
    exec i (s.setInp other) = mapNext (·.setInp other) (exec i s) := by
  cases i with
  | ret x y =>
    simp only [exec, execRet, State.pop_setInp]
    cases s.pop <;> rfl
  | callAddr nnn =>
    simp only [exec, execCallAddr, State.push_setInp, State.setInp_pc]
    cases s.push (s.pc + 2#16) <;> rfl
  | skpVx x y =>
    simp only [exec, execSkpVx, State.setInp_inp, hkeys rfl]
    rfl
  | sknpVx x y =>
    simp only [exec, execSknpVx, State.setInp_inp, hkeys rfl]
    rfl
  | ldVxK x y =>
    simp only [exec, execLdVxK, State.setInp_inp, hkeys rfl]
    cases lowestKey s.inp.keys <;> rfl
  | rndVxByte x nn =>
    simp only [exec, execRndVxByte, State.setInp_inp, hrnd rfl]
    rfl
  | drwVxVyN x y n =>
    simp only [exec, execDrwVxVyN, State.setInp_mem, State.setInp_effectiveAddress]
    cases s.mem.loadBytes (s.effectiveAddress 0) n.toNat <;> rfl
  | ldBVx x y =>
    simp only [exec, execLdBVx, State.setInp_mem, State.setInp_effectiveAddress, State.setInp_reg]
    cases s.mem.storeBytes (s.effectiveAddress 0) (bcdDigits (s.reg x)) <;> rfl
  | ldMemIVx x =>
    simp only [exec, execLdMemIVx, State.setInp_mem, State.setInp_effectiveAddress, State.setInp_regsUpTo]
    cases s.mem.storeBytes (s.effectiveAddress 0) (s.regsUpTo x) <;> rfl
  | ldVxMemI x =>
    simp only [exec, execLdVxMemI, State.setInp_mem, State.setInp_effectiveAddress]
    cases s.mem.loadBytes (s.effectiveAddress 0) (x.toNat + 1) <;> rfl
  | _ => rfl

/-- Settles O24: an instruction that completes changes I only as a writer of it, one that does not changes STATUS alone;
and `exec_setI`. -/
theorem indexIsReadAndWrittenOnlyByTheListedInstructions :
    Obligations.IndexIsReadAndWrittenOnlyByTheListedInstructions := by
  intro i s t h
  refine ⟨fun hw => ?_, fun hr a => ?_⟩
  · rcases exec_cases h with hc | ⟨_, _, _, _, rfl⟩
    · exact (completion_of_completesIn hc).index hw
    · rfl
  · rw [exec_setI hr, h, mapNext]

/-- Settles O25, by `exec_setInp`. -/
theorem inputsAreReadOnlyByTheirInstructions : Obligations.InputsAreReadOnlyByTheirInstructions := by
  intro i s t other h hkeys hrnd
  change exec i (s.setInp other) = .next (t.setInp other)
  rw [exec_setInp hkeys hrnd, h, mapNext]

/-! ## STATUS and reset (R37, R45) -/

theorem Cause.code_le (c : Cause) : c.code.toNat ≤ 5 := by
  cases c <;> decide

/-- Settles O19: each field is what is left of the concatenation above the fields below it. -/
theorem statusWordHasItsFields : Obligations.StatusWordHasItsFields := by
  intro st
  refine ⟨?_, ?_, ?_, ?_, ?_, st.cause.code_le⟩
  · exact BitVec.extractLsb'_append_eq_right
  · exact (BitVec.extractLsb'_append_eq_of_le (Nat.le_refl 2)).trans BitVec.extractLsb'_append_eq_right
  · calc
      st.word.extractLsb' 5 17 = (0#2 ++ BitVec.ofBool st.beep ++ st.info ++ st.cause.code).extractLsb' 3 17 :=
        BitVec.extractLsb'_append_eq_of_le (by decide)
      _ = (0#2 ++ BitVec.ofBool st.beep ++ st.info).extractLsb' 0 17 :=
        BitVec.extractLsb'_append_eq_of_le (by decide)
      _ = st.info := BitVec.extractLsb'_append_eq_right
  · simp only [Status.word, BitVec.getLsbD_append]
    simp
  · calc
      st.word.extractLsb' 23 2 = (0#2 ++ BitVec.ofBool st.beep ++ st.info ++ st.cause.code).extractLsb' 21 2 :=
        BitVec.extractLsb'_append_eq_of_le (by decide)
      _ = (0#2 ++ BitVec.ofBool st.beep ++ st.info).extractLsb' 18 2 :=
        BitVec.extractLsb'_append_eq_of_le (by decide)
      _ = (0#2 ++ BitVec.ofBool st.beep).extractLsb' 1 2 := BitVec.extractLsb'_append_eq_of_le (by decide)
      _ = 0#2 := BitVec.extractLsb'_append_eq_left

/-- Settles O22. -/
theorem resetMeetsTheInvariant : Obligations.ResetMeetsTheInvariant where
  memCanonical := Memory.wf_nil
  pcBounded := by decide
  returnBounded _ hk := absurd hk (Nat.not_lt_zero _)

theorem State.reset_reg (r : Nibble) : State.reset.reg r = 0x00#8 := by
  simp [State.reset, State.reg]

theorem State.reset_stackAt (k : Fin 16) : State.reset.stackAt k = 0x0000#16 := by
  simp [State.reset, State.stackAt]

theorem State.reset_pixel {x y : Nat} (hy : y < 32) : State.reset.pixel x y = false := by
  simp [State.reset, State.pixel, Framebuffer.pixel, hy]

/-- A reset between cycles leaves all but the host's inputs as the first reset does (R297). -/
theorem State.hostReset_frame (s : State) : frame [.inputs] State.reset s.hostReset := by
  intro p hp
  cases p with
  | inputs => exact absurd (List.mem_singleton_self _) hp
  | regs | mem => exact fun _ => rfl
  | stack => exact ⟨rfl, fun _ => rfl⟩
  | _ => rfl

/-- Settles O56. -/
theorem resetLeavesTheSpecifiedValues : Obligations.ResetLeavesTheSpecifiedValues :=
  ⟨State.reset_reg, rfl, rfl, rfl, State.reset_stackAt, rfl, rfl, fun _ _ _ hy => State.reset_pixel hy,
    ⟨rfl, rfl, rfl⟩, rfl, State.hostReset_frame⟩

end Sys2Proof.Machine
end

section
/-! SUPPORT. Proofs about MEM (spec/20_memory.md): what a block store leaves and a later fetch reads of it, and MEM
after reset. -/

namespace Sys2Proof.Machine

/-! ## A block store that stays inside MEM, and a fetch of its bytes (R66, R75, R238) -/

theorem State.effectiveAddress_succ (s : State) (r : Nat) : s.effectiveAddress (r + 1) = s.effectiveAddress r + 1 := rfl

/-- FX55 inside MEM completes with V0 to VX at I on and every other byte kept. -/
theorem exec_ldMemIVx {x : Nibble} {s : State} (hin : s.i.toNat + x.toNat < 0x1000) :
    ∃ m, exec (.ldMemIVx x) s = complete ({ s with mem := m } : State).advance ∧
      (∀ r : Nibble, r.toNat ≤ x.toNat → m.read (s.effectiveAddress r.toNat) = s.reg r) ∧
      memKeptOutside (s.effectiveAddress 0) (x.toNat + 1) s { s with mem := m } := by
  have hlen := s.regsUpTo_length x
  obtain ⟨m, hm, hread, -⟩ := s.mem.storeBytes_ok (s.effectiveAddress 0) (s.regsUpTo x)
    (.inr (by rw [hlen, State.effectiveAddress]; omega))
  rw [hlen] at hread
  refine ⟨m, by simp only [exec, execLdMemIVx, hm], fun r hr => ?_, fun a hout => (hread a).trans (if_neg hout)⟩
  have hplace : s.effectiveAddress r.toNat = s.effectiveAddress 0 + r.toNat := rfl
  rw [hread, hplace, if_pos (by omega), Nat.add_sub_cancel_left, s.regsUpTo_getD x r hr]

/-- The register after V[r] that a block store up to V[X] also stores: its number does not wrap. -/
theorem nibble_succ_toNat {r x : Nibble} (h : r.toNat < x.toNat) : (r + 1#4).toNat = r.toNat + 1 := by
  bv_omega

/-- Settles O55: FX55 puts V[r] and V[r + 1] at neighbouring addresses, and a fetch there merges the two. -/
theorem storedBytesAreFetchedAsAnOpcode : Obligations.StoredBytesAreFetchedAsAnOpcode := by
  intro x r s t u hin hr h hmem hpc
  obtain ⟨m, hm, hread, -⟩ := exec_ldMemIVx hin
  obtain rfl := Host.Outcome.next.inj (hm.symm.trans h)
  have hnext := nibble_succ_toNat hr
  have hhigh : u.mem.read u.pc.toNat = s.reg r := by
    rw [hmem, hpc]
    exact hread r hr.le
  have hlow : u.mem.read (u.pc.toNat + 1) = s.reg (r + 1#4) := by
    rw [hmem, hpc, ← s.effectiveAddress_succ, ← hnext]
    exact hread (r + 1#4) (by omega)
  have hrange : u.pc.toNat + 1 < 0x1000 := by
    rw [hpc, State.effectiveAddress]
    omega
  rw [fetch_eq, if_pos hrange, hhigh, hlow, mergeBytes]

/-! ## MEM after reset (R6, R77, R292) -/

/-- R6: the font ends below PROGRAM_BASE. -/
theorem fontBase_add_fontSize_le : Config.fontBase.val + 80 ≤ 0x200 := by
  have h := Config.fontBase.isLt
  omega

theorem Memory.resetByte_font (j : Fin 80) :
    Memory.resetByte (Config.fontBase.val + j.val) = Config.fontTable[j.val]'j.isLt := by
  have hend := fontBase_add_fontSize_le
  have hj := j.isLt
  have hbelow : ¬ 0x200 ≤ Config.fontBase.val + j.val := by omega
  simp [Memory.resetByte, hbelow, List.getD_eq_getElem?_getD]

theorem Memory.resetByte_outside {a : Nat} (h : ¬ (Config.fontBase.val ≤ a ∧ a < Config.fontBase.val + 80)) :
    Memory.resetByte a = 0x00#8 := by
  unfold Memory.resetByte
  split
  · rfl
  · split
    · exact List.getD_eq_default _ _ (by rw [Vector.length_toList]; omega)
    · rfl

/-- Settles O57: reset lists no byte, so every read is `Memory.resetByte`. -/
theorem resetMemoryHoldsTheFontAndZeros : Obligations.ResetMemoryHoldsTheFontAndZeros :=
  ⟨fontBase_add_fontSize_le, Memory.resetByte_font, fun _ _ => Memory.resetByte_outside⟩

end Sys2Proof.Machine
end

section
/-! SUPPORT. Proofs about the encoding (spec/30_encoding.md): the round trips of decoder and encoder, the decode-error
space, the fields of an opcode, and aliases. -/

namespace Sys2Proof

/-! ## Decode of encode (R92, R95, R96) -/

/-- Settles O1: the decoder reads back the class and the selectors that the encoder put there, and takes the other
fields as operands. -/
theorem decodeOfEncodeIsTheInstruction : Obligations.DecodeOfEncodeIsTheInstruction := by
  intro i
  cases i with
  | jpAddr nnn | callAddr nnn | ldIAddr nnn | jpV0Addr nnn => simp [encode, decode]
  | seVxByte x nn | sneVxByte x nn | ldVxByte x nn | addVxByte x nn | rndVxByte x nn => simp [encode, decode]
  | seVxVy x y n | sneVxVy x y n | drwVxVyN x y n => simp [encode, decode]
  | cls x y | ret x y => simp [encode, decode, decodeClass0]
  | ldVxVy x y | orVxVy x y | andVxVy x y | xorVxVy x y | addVxVy x y | subVxVy x y | shrVxVy x y | subnVxVy x y
  | shlVxVy x y => simp [encode, decode, decodeClass8]
  | skpVx x y | sknpVx x y => simp [encode, decode, decodeClassE]
  | ldDtVx x | ldMemIVx x | ldVxMemI x => simp [encode, decode, decodeClassF, decodeClassF5]
  | ldVxDt x y | ldVxK x y | ldStVx x y | addIVx x y | ldFVx x y | ldBVx x y =>
    simp [encode, decode, decodeClassF]

/-! ## What the decoder answers on a word (R95, R97) -/

/-- The five parts of the decode-error space, by the class, Y and N of an opcode (R97). -/
def inErrorSpace (c y n : Nibble) : Prop :=
  (c = 0x0#4 ∧ n ∉ [0x0#4, 0xE#4]) ∨
  (c = 0x8#4 ∧ n ∈ [0x8#4, 0x9#4, 0xA#4, 0xB#4, 0xC#4, 0xD#4, 0xF#4]) ∨
  (c = 0xE#4 ∧ n ∉ [0x1#4, 0xE#4]) ∨
  (c = 0xF#4 ∧ n ∈ [0x0#4, 0x1#4, 0x2#4, 0x4#4, 0x6#4, 0xB#4, 0xC#4, 0xD#4, 0xF#4]) ∨
  (c = 0xF#4 ∧ n = 0x5#4 ∧ y ∉ [0x1#4, 0x5#4, 0x6#4])

/-- What the decoder, or a level of it, answers on the opcode `op`: outside the error space an instruction that encodes
to `op`, in it a rejection. -/
inductive DecodeShape (op : Half) (bad : Prop) (r : Except DecodeReject Instr) : Prop where
  | accepts (i : Instr) (h : r = .ok i) (word : encode i = op) (good : ¬ bad) : DecodeShape op bad r
  | rejects (e : DecodeReject) (h : r = .error e) (isBad : bad) : DecodeShape op bad r

/-- A selector that a dispatch on its number has fixed. -/
theorem nibble_eq_of_toNat {n : Nibble} {k : Nat} (h : n.toNat = k) : n = BitVec.ofNat 4 k := by
  rw [← h, BitVec.ofNat_toNat, BitVec.setWidth_eq]

theorem decodeClass0_shape {x y n : Nibble} {op : Half} (hop : opcodeXYN 0x0#4 x y n = op) :
    DecodeShape op (inErrorSpace 0x0#4 y n) (decodeClass0 x y n) := by
  unfold decodeClass0
  split
  case h_3 => exact .rejects _ rfl (.inl ⟨rfl, by clear hop; revert n; decide⟩)
  all_goals
    obtain rfl := nibble_eq_of_toNat ‹_›
    exact .accepts _ rfl hop (by simp [inErrorSpace])

theorem decodeClass8_shape {x y n : Nibble} {op : Half} (hop : opcodeXYN 0x8#4 x y n = op) :
    DecodeShape op (inErrorSpace 0x8#4 y n) (decodeClass8 x y n) := by
  unfold decodeClass8
  split
  case h_10 => exact .rejects _ rfl (.inr (.inl ⟨rfl, by clear hop; revert n; decide⟩))
  all_goals
    obtain rfl := nibble_eq_of_toNat ‹_›
    exact .accepts _ rfl hop (by simp [inErrorSpace])

theorem decodeClassE_shape {x y n : Nibble} {op : Half} (hop : opcodeXYN 0xE#4 x y n = op) :
    DecodeShape op (inErrorSpace 0xE#4 y n) (decodeClassE x y n) := by
  unfold decodeClassE
  split
  case h_3 => exact .rejects _ rfl (.inr (.inr (.inl ⟨rfl, by clear hop; revert n; decide⟩)))
  all_goals
    obtain rfl := nibble_eq_of_toNat ‹_›
    exact .accepts _ rfl hop (by simp [inErrorSpace])

theorem decodeClassF5_shape {x y : Nibble} {op : Half} (hop : opcodeXYN 0xF#4 x y 0x5#4 = op) :
    DecodeShape op (inErrorSpace 0xF#4 y 0x5#4) (decodeClassF5 x y) := by
  unfold decodeClassF5
  split
  case h_4 => exact .rejects _ rfl (.inr (.inr (.inr (.inr ⟨rfl, rfl, by clear hop; revert y; decide⟩))))
  all_goals
    obtain rfl := nibble_eq_of_toNat ‹_›
    exact .accepts _ rfl hop (by simp [inErrorSpace])

theorem decodeClassF_shape {x y n : Nibble} {op : Half} (hop : opcodeXYN 0xF#4 x y n = op) :
    DecodeShape op (inErrorSpace 0xF#4 y n) (decodeClassF x y n) := by
  unfold decodeClassF
  split
  case h_8 => exact .rejects _ rfl (.inr (.inr (.inr (.inl ⟨rfl, by clear hop; revert n; decide⟩))))
  all_goals obtain rfl := nibble_eq_of_toNat ‹_›
  case h_7 => exact decodeClassF5_shape hop
  all_goals exact .accepts _ rfl hop (by simp [inErrorSpace])

/-- The decoder on any word, by its class: the layouts CNNN, CXNN and CXYN put the word together again, and the classes
0x0, 0x8, 0xE and 0xF have selectors. -/
theorem decode_shape (op : Half) : DecodeShape op (inErrorSpace (fieldC op) (fieldY op) (fieldN op)) (decode op) := by
  have hxyn := opcodeXYN_fields op
  have hxnn := opcodeXNN_fields op
  have hnnn := opcodeNNN_fields op
  unfold decode
  generalize fieldC op = c at *
  split
  case h_16 =>
    obtain rfl : c = 0xF#4 := by clear hxyn hxnn hnnn; revert c; decide
    exact decodeClassF_shape hxyn
  all_goals obtain rfl := nibble_eq_of_toNat ‹_›
  case h_1 => exact decodeClass0_shape hxyn
  case h_9 => exact decodeClass8_shape hxyn
  case h_15 => exact decodeClassE_shape hxyn
  case h_2 | h_3 | h_11 | h_12 => exact .accepts _ rfl hnnn (by simp [inErrorSpace])
  case h_4 | h_5 | h_7 | h_8 | h_13 => exact .accepts _ rfl hxnn (by simp [inErrorSpace])
  case h_6 | h_10 | h_14 => exact .accepts _ rfl hxyn (by simp [inErrorSpace])

/-- Settles O2, by `decode_shape`. -/
theorem encodeOfDecodeIsTheWord : Obligations.EncodeOfDecodeIsTheWord := by
  intro op i h
  rcases decode_shape op with ⟨j, hj, word, -⟩ | ⟨e, he, -⟩
  · obtain rfl := Except.ok.inj (hj.symm.trans h)
    exact word
  · cases he.symm.trans h

/-- Settles O4, by `decode_shape`. -/
theorem decodeErrorSpaceIsExactlyTheListedOpcodes : Obligations.DecodeErrorSpaceIsExactlyTheListedOpcodes := by
  intro op
  change (∃ e, decode op = .error e) ↔ inErrorSpace (fieldC op) (fieldY op) (fieldN op)
  rcases decode_shape op with ⟨i, hi, -, good⟩ | ⟨e, he, bad⟩
  · simp [hi, good]
  · simp [he, bad]

/-! ## Fields of an opcode (R92) -/

/-- An opcode of four nibbles is the OR of the nibbles in their places. -/
theorem opcodeXYN_eq_or (c x y n : Nibble) : opcodeXYN c x y n =
    (c.setWidth 16 <<< 12 ||| x.setWidth 16 <<< 8 ||| y.setWidth 16 <<< 4 ||| n.setWidth 16) := by
  rw [← BitVec.setWidth_eq (opcodeXYN c x y n)]
  exact BitVec.setWidth_append_append_append_eq_shiftLeft_setWidth_or

theorem opcodeNNN_eq_or (c : Nibble) (nnn : Addr12) :
    opcodeNNN c nnn = (c.setWidth 16 <<< 12 ||| nnn.setWidth 16) := by
  rw [← BitVec.setWidth_eq (opcodeNNN c nnn)]
  exact BitVec.setWidth_append_eq_shiftLeft_setWidth_or

/-- The mask 0xFF00 takes NN out of an opcode, and the OR puts it back. -/
theorem opcodeXNN_eq_or (c x : Nibble) (nn : Byte) :
    opcodeXNN c x nn = ((opcodeXNN c x nn &&& 0xFF00#16) ||| nn.setWidth 16) := by
  have hmask : 0xFF00#16 = BitVec.allOnes 8 ++ 0#8 := by decide
  have hnn : nn.setWidth 16 = 0#8 ++ nn := BitVec.setWidth_eq_append (by decide)
  have hparts : ((c ++ x ++ nn) &&& (BitVec.allOnes 8 ++ 0#8)) ||| (0#8 ++ nn) = c ++ x ++ nn := by
    simp only [BitVec.and_append, BitVec.or_append, BitVec.and_allOnes, BitVec.and_zero, BitVec.or_zero,
      BitVec.zero_or]
  rw [hmask, hnn]
  exact hparts.symm

/-- Settles O3: an opcode is what its fields make, and each layout is an OR of its fields. -/
theorem fieldsRecomposeTheOpcode : Obligations.FieldsRecomposeTheOpcode := by
  intro op
  refine ⟨?_, ?_, ?_⟩
  · rw [← opcodeXYN_eq_or, opcodeXYN_fields]
  · rw [← opcodeNNN_eq_or, opcodeNNN_fields]
  · have h := opcodeXNN_eq_or (fieldC op) (fieldX op) (fieldNN op)
    rw [opcodeXNN_fields] at h
    exact h.symm

/-! ## Words of the spec -/

/-- Settles O5, by running the decoder on each word. -/
theorem specWordsDecodeAsTheirInstructions : Obligations.SpecWordsDecodeAsTheirInstructions := by
  unfold Obligations.SpecWordsDecodeAsTheirInstructions
  decide

end Sys2Proof

namespace Sys2Proof.Machine

/-! ## Aliases (R96) -/

/-- RET on a stack that is not empty does not read its ignored nibbles. -/
theorem execRet_ignores {s : State} (hs : 0 < s.sp.val) (x y x' y' : Nibble) : execRet x y s = execRet x' y' s := by
  rcases s.pop_cases with ⟨h0, -⟩ | ⟨-, hk, t, hpop, -⟩
  · omega
  · simp only [execRet, hpop]

theorem canonical_canonical (i : Instr) : i.canonical.canonical = i.canonical := by
  cases i <;> rfl

/-- Settles O6: RET alone passes its ignored nibbles on, and only to the report of an empty stack. -/
theorem anAliasRunsAsItsCanonicalForm : Obligations.AnAliasRunsAsItsCanonicalForm := by
  intro i s
  refine ⟨fun h => ?_, decide_eq_true (canonical_canonical i)⟩
  cases i with
  | ret x y =>
    rcases h with hret | hs
    · exact absurd rfl (hret x y)
    · exact execRet_ignores hs _ _ _ _
  | _ => rfl

end Sys2Proof.Machine
end

section
/-! SUPPORT. Proofs about the cycle (spec/40_cycle.md): what the end of a cycle leaves, which piece of state each
operation writes, and with these what an instruction and a whole cycle change. -/

namespace Sys2Proof.Machine

/-! ## The end of a cycle (R122 to R126) -/

@[simp] theorem State.endCycle_dt (s : State) :
    s.endCycle.dt = if s.inp.tickEn then countDown s.dt else s.dt := by simp [State.endCycle]
@[simp] theorem State.endCycle_st (s : State) :
    s.endCycle.st = if s.inp.tickEn then countDown s.st else s.st := by simp [State.endCycle]
@[simp] theorem State.endCycle_status (s : State) :
    s.endCycle.status = { s.status with beep := s.inp.tickEn && decide (s.st = 0x01#8) } := by simp [State.endCycle]

/-- A timer at the end of a cycle, as a number (R123). -/
theorem countDown_if_toNat (tickEn : Bool) (b : Byte) :
    (if tickEn then countDown b else b).toNat = if tickEn then b.toNat - 1 else b.toNat := by
  cases tickEn with
  | true => exact countDown_toNat b
  | false => rfl

/-- Settles O8. -/
theorem tickCountsTheDelayTimerDown : Obligations.TickCountsTheDelayTimerDown := by
  intro s
  refine ⟨fun hon => ?_, fun hoff => ?_⟩
  · rw [State.endCycle_dt, countDown_if_toNat, if_pos hon]
  · simp [hoff]

/-! ## Accesses that succeed (R10, R205) -/

theorem Memory.length_of_loadBytes {m : Memory} {base n : Nat} {bs : List Byte} (h : m.loadBytes base n = .ok bs) :
    bs.length = n := by
  by_cases hr : n = 0 ∨ base + n ≤ 0x1000
  · rw [Memory.loadBytes_ok m base n hr] at h
    cases h
    simp
  · rw [Memory.loadBytes_error m base n (by omega) (by omega)] at h
    cases h

/-- Stores that succeed keep every byte outside their range. -/
theorem Memory.read_of_storeBytes {m m' : Memory} {base a : Nat} {bs : List Byte} (h : m.storeBytes base bs = .ok m')
    (ha : ¬ (base ≤ a ∧ a < base + bs.length)) : m'.read a = m.read a := by
  by_cases hr : bs = [] ∨ base + bs.length ≤ 0x1000
  · obtain ⟨m₁, h₁, hread, -⟩ := Memory.storeBytes_ok m base bs hr
    obtain rfl : m₁ = m' := Except.ok.inj (h₁.symm.trans h)
    exact (hread a).trans (if_neg ha)
  · rw [Memory.storeBytes_error m base bs (fun e => hr (.inl e)) (by omega)] at h
    cases h

/-! ## The piece of state each operation writes (R120) -/

/-- A piece of state is the same in two states by the fields that hold it; `Part.kept` says it of what they read as. -/
def Part.same (s t : State) : Part → Prop
  | .regs => t.v = s.v
  | .index => t.i = s.i
  | .pc => t.pc = s.pc
  | .stack => (t.sp, t.stack) = (s.sp, s.stack)
  | .dt => t.dt = s.dt
  | .st => t.st = s.st
  | .fb => t.fb = s.fb
  | .mem => t.mem = s.mem
  | .status => t.status = s.status
  | .inputs => (t.inp, t.pending, t.cycle) = (s.inp, s.pending, s.cycle)

theorem Part.kept_refl (p : Part) (s : State) : p.kept s s := by
  cases p with
  | regs | mem => exact fun _ => rfl
  | stack => exact ⟨rfl, fun _ => rfl⟩
  | inputs => exact ⟨rfl, rfl, rfl⟩
  | _ => rfl

theorem Part.kept_iff_of_same {s t u : State} {p : Part} (h : p.same t u) : p.kept s u ↔ p.kept s t := by
  cases p with
  | regs => simp only [Part.kept, State.reg_congr h]
  | stack =>
    obtain ⟨hsp, hst⟩ := Prod.mk.inj h
    simp only [Part.kept, hsp, State.stackAt_congr hst]
  | mem =>
    have hmem : u.mem = t.mem := h
    simp only [Part.kept, hmem]
  | inputs =>
    simp only [Part.same, Prod.mk.injEq] at h
    simp only [Part.kept, h]
  | _ => exact Eq.congr_left h

/-- `t` with one piece of state taken from `u`. -/
def Part.overwrite (p : Part) (t u : State) : State where
  v := if p = .regs then u.v else t.v
  i := if p = .index then u.i else t.i
  pc := if p = .pc then u.pc else t.pc
  sp := if p = .stack then u.sp else t.sp
  stack := if p = .stack then u.stack else t.stack
  dt := if p = .dt then u.dt else t.dt
  st := if p = .st then u.st else t.st
  fb := if p = .fb then u.fb else t.fb
  mem := if p = .mem then u.mem else t.mem
  status := if p = .status then u.status else t.status
  inp := if p = .inputs then u.inp else t.inp
  pending := if p = .inputs then u.pending else t.pending
  cycle := if p = .inputs then u.cycle else t.cycle

theorem Part.same_overwrite {p q : Part} (h : q ≠ p) (t u : State) : q.same t (p.overwrite t u) := by
  cases q with
  | stack | inputs => simp only [Part.same, Part.overwrite, if_neg h.symm]
  | _ => exact if_neg h.symm

@[simp] theorem frame_refl (w : List Part) (s : State) : frame w s s := fun p _ => p.kept_refl s

section
variable {w : List Part} {s t u : State}

/-- What writes only pieces that a frame lists is no matter for the frame. -/
theorem frame_iff_of_same (h : ∀ p, p ∉ w → p.same t u) : frame w s u ↔ frame w s t :=
  forall₂_congr fun p hp => Part.kept_iff_of_same (h p hp)

/-- One piece of state written, with that of another state, is no matter for a frame that lists it. -/
theorem frame_overwrite {p : Part} (hp : p ∈ w) (v : State) : frame w s (p.overwrite t v) ↔ frame w s t :=
  frame_iff_of_same fun _ hq => Part.same_overwrite (ne_of_mem_of_not_mem hp hq).symm t v

@[simp] theorem frame_setReg (hw : .regs ∈ w) (x : Nibble) (b : Byte) : frame w s (t.setReg x b) ↔ frame w s t :=
  frame_overwrite hw (t.setReg x b)

@[simp] theorem frame_setFlagThenReg (hw : .regs ∈ w) (flag : Bool) (x : Nibble) (b : Byte) :
    frame w s (t.setFlagThenReg flag x b) ↔ frame w s t := by
  rw [State.setFlagThenReg, frame_setReg hw, frame_setReg hw]

@[simp] theorem frame_setRegs (hw : .regs ∈ w) (bs : List Byte) : frame w s (t.setRegs bs) ↔ frame w s t :=
  frame_overwrite hw (t.setRegs bs)

@[simp] theorem frame_setI (hw : .index ∈ w) (a : Half) : frame w s (t.setI a) ↔ frame w s t :=
  frame_overwrite hw (t.setI a)

@[simp] theorem frame_setPc (hw : .pc ∈ w) (a : Half) : frame w s (t.setPc a) ↔ frame w s t :=
  frame_overwrite hw (t.setPc a)

@[simp] theorem frame_advance (hw : .pc ∈ w) : frame w s t.advance ↔ frame w s t :=
  frame_setPc hw (t.pc + 2#16)

@[simp] theorem frame_setDt (hw : .dt ∈ w) (b : Byte) : frame w s { t with dt := b } ↔ frame w s t :=
  frame_overwrite hw { t with dt := b }

@[simp] theorem frame_setSt (hw : .st ∈ w) (b : Byte) : frame w s { t with st := b } ↔ frame w s t :=
  frame_overwrite hw { t with st := b }

@[simp] theorem frame_setFb (hw : .fb ∈ w) (fb : Framebuffer) : frame w s { t with fb := fb } ↔ frame w s t :=
  frame_overwrite hw { t with fb := fb }

@[simp] theorem frame_setMem (hw : .mem ∈ w) (m : Memory) : frame w s { t with mem := m } ↔ frame w s t :=
  frame_overwrite hw { t with mem := m }

@[simp] theorem frame_report (hw : .status ∈ w) (c : CycleStatus) (e : Cause) (n : BitVec 17) :
    frame w s (t.report c e n) ↔ frame w s t :=
  frame_overwrite hw (t.report c e n)

theorem frame_of_pop {a : Half} (hw : .stack ∈ w) (h : s.pop = some (a, u)) : frame w s u := by
  rcases s.pop_cases with ⟨-, hn⟩ | ⟨-, _, v, hv, -, he⟩
  · cases hn.symm.trans h
  · obtain ⟨-, rfl⟩ := Prod.mk.inj (Option.some.inj (hv.symm.trans h))
    rw [he]
    exact (frame_overwrite hw { s with sp := v.sp }).2 (frame_refl w s)

theorem frame_of_push {a : Half} (hw : .stack ∈ w) (h : s.push a = some u) : frame w s u := by
  rcases s.push_cases a with ⟨-, hn⟩ | ⟨v, hlt, hv, -, he, -⟩
  · cases hn.symm.trans h
  · obtain rfl : v = u := Option.some.inj (hv.symm.trans h)
    rw [he]
    exact (frame_overwrite hw { s with stack := s.stack.set s.sp.val a hlt, sp := v.sp }).2 (frame_refl w s)

@[simp] theorem frame_endCycle (hdt : .dt ∈ w) (hst : .st ∈ w) (hstatus : .status ∈ w) (hinputs : .inputs ∈ w) :
    frame w s t.endCycle ↔ frame w s t :=
  frame_iff_of_same fun p hp => by
    cases p with
    | dt => exact absurd hdt hp
    | st => exact absurd hst hp
    | status => exact absurd hstatus hp
    | inputs => exact absurd hinputs hp
    | _ => simp [Part.same, State.endCycle]

end

/-- Settles O10, by `frame_endCycle`. -/
theorem endOfCycleKeepsEverythingButTimersBeepAndInputs :
    Obligations.EndOfCycleKeepsEverythingButTimersBeepAndInputs := by
  intro s
  refine ⟨by simp, by simp [State.reports], fun next rest h => ?_⟩
  simp [State.endCycle, State.nextInputs, h]

/-! ## What an instruction changes (R120) -/

/-- An instruction writes no piece of state that its rule does not list. -/
theorem exec_frame {i : Instr} {s t : State} (h : exec i s = .next t) : frame i.writes s t := by
  cases i with
  | ret _ _ =>
    simp only [exec, execRet] at h
    split at h
    · cases h
      simp [Instr.writes]
    · cases h
      simpa [Instr.writes] using frame_of_pop (by simp) ‹_›
  | callAddr _ =>
    simp only [exec, execCallAddr] at h
    split at h
    · cases h
      simp [Instr.writes]
    · cases h
      simpa [Instr.writes] using frame_of_push (by simp) ‹_›
  | drwVxVyN _ _ _ | ldVxK _ _ | ldBVx _ _ | ldMemIVx _ | ldVxMemI _ =>
    simp only [exec, execDrwVxVyN, execLdVxK, execLdBVx, execLdMemIVx, execLdVxMemI] at h
    split at h <;> cases h <;> simp [Instr.writes]
  | _ =>
    cases h
    simp [Instr.writes]

theorem Instr.mem_regsThrough {r x : Nibble} : r ∈ Instr.regsThrough x ↔ r.toNat ≤ x.toNat := by
  simp only [Instr.regsThrough, List.mem_map, List.mem_range]
  constructor
  · rintro ⟨k, hk, rfl⟩
    exact (Nat.mod_le k 16).trans (Nat.lt_succ_iff.1 hk)
  · exact fun h => ⟨r.toNat, Nat.lt_succ_of_le h, by simp⟩

/-- An instruction writes no register that its rule does not list (R24, R39). -/
theorem exec_onlyRegs {i : Instr} {s t : State} (h : exec i s = .next t) : onlyRegs i.writtenRegs s t := by
  intro r hr
  cases i with
  | ldVxByte _ _ | addVxByte _ _ | ldVxVy _ _ | orVxVy _ _ | andVxVy _ _ | xorVxVy _ _ | rndVxByte _ _ | ldVxDt _ _
  | addVxVy _ _ | subVxVy _ _ | shrVxVy _ _ | subnVxVy _ _ | shlVxVy _ _ | addIVx _ _ =>
    simp only [Instr.writtenRegs, List.mem_cons, List.not_mem_nil, or_false, not_or] at hr
    cases h
    simp [hr]
  | drwVxVyN _ _ _ =>
    simp only [exec, execDrwVxVyN] at h
    split at h
    · cases h
      rfl
    · cases h
      exact (State.setReg_reg _ vF r _).trans (if_neg (List.ne_of_not_mem_cons hr))
  | ldVxK x _ =>
    simp only [exec, execLdVxK] at h
    split at h
    · cases h
      rfl
    · cases h
      exact (State.setReg_reg s x r _).trans (if_neg (List.ne_of_not_mem_cons hr))
  | ldVxMemI x =>
    simp only [exec, execLdVxMemI] at h
    split at h
    · cases h
      rfl
    · cases h
      have hlen := Memory.length_of_loadBytes ‹_›
      have hout : ¬ r.toNat ≤ x.toNat := fun hle => hr (Instr.mem_regsThrough.2 hle)
      exact (State.setRegs_reg s _ r).trans (if_neg (by omega))
  | _ => exact exec_frame h .regs (by simp [Instr.writes]) r

/-- An instruction stores nothing outside its own bytes (R62). -/
theorem exec_memKeptOutside {i : Instr} {s t : State} (h : exec i s = .next t) :
    memKeptOutside (s.effectiveAddress 0) i.storedBytes s t := by
  intro a ha
  cases i with
  | ldBVx x _ =>
    simp only [exec, execLdBVx] at h
    split at h
    · cases h
      rfl
    · cases h
      exact Memory.read_of_storeBytes ‹_› ha
  | ldMemIVx x =>
    simp only [exec, execLdMemIVx] at h
    split at h
    · cases h
      rfl
    · cases h
      exact Memory.read_of_storeBytes ‹_› (by rwa [s.regsUpTo_length x])
  | _ => exact exec_frame h .mem (by simp [Instr.writes]) a

/-- Settles O23, by its three parts. -/
theorem everyInstructionChangesOnlyWhatItsRuleWrites : Obligations.EveryInstructionChangesOnlyWhatItsRuleWrites :=
  fun _ _ _ h => ⟨exec_frame h, exec_onlyRegs h, exec_memKeptOutside h⟩

/-! ## Every cycle ends in a next state (R110, R128, R266) -/

/-- No instruction stops the machine (R266). -/
theorem exec_total (i : Instr) (s : State) : ∃ t, exec i s = .next t := by
  rcases exec_shape i s with ⟨_, h⟩ | h | ⟨_, _, _, h⟩ <;> exact ⟨_, h⟩

theorem step_of_fetch_none {s : State} (hf : s.fetch = none) :
    step s = .next (s.report .fatalError .fetchRange (infoOfHalf s.pc)).endCycle := by
  simp only [step, executeCycle, hf]
  rfl

theorem step_of_decode_error {s : State} {op : Half} {e : DecodeReject} (hf : s.fetch = some op)
    (hd : decode op = .error e) :
    step s = .next (s.advance.report .decodeError .decode (infoOfHalf op)).endCycle := by
  simp only [step, executeCycle, hf, hd]
  rfl

theorem step_of_decode_ok {s t : State} {op : Half} {i : Instr} (hf : s.fetch = some op) (hd : decode op = .ok i)
    (he : exec i s = .next t) : step s = .next t.endCycle := by
  simp only [step, executeCycle, hf, hd, he, finish]

/-- Settles O12, by the three cases of a cycle. -/
theorem everyStepAnswersANextState : Obligations.EveryStepAnswersANextState := by
  intro s
  cases hf : s.fetch with
  | none => exact ⟨_, step_of_fetch_none hf⟩
  | some op =>
    cases hd : decode op with
    | error e => exact ⟨_, step_of_decode_error hf hd⟩
    | ok i =>
      obtain ⟨t, he⟩ := exec_total i s
      exact ⟨_, step_of_decode_ok hf hd he⟩

/-- Settles O7. -/
theorem stepRunsTheDecodedInstruction : Obligations.StepRunsTheDecodedInstruction := by
  intro s i hpc hd
  have hf := (fetch_eq s).trans (if_pos hpc)
  obtain ⟨t, he⟩ := exec_total i s
  exact ⟨t, he, step_of_decode_ok hf hd he⟩

/-- Settles O13. -/
theorem decodeErrorSkipsTheOpcodeAndChangesNothingElse :
    Obligations.DecodeErrorSkipsTheOpcodeAndChangesNothingElse := by
  intro s op e hf hd
  exact ⟨_, step_of_decode_error hf hd, by simp, by simp [State.reports, infoOfHalf], by simp⟩

/-- Settles O14: no fetch reads beyond 0xFFE. -/
theorem fetchBeyondMemoryIsAFatalErrorWithPcKept : Obligations.FetchBeyondMemoryIsAFatalErrorWithPcKept := by
  intro s hpc
  have hf : s.fetch = none := (fetch_eq s).trans (if_neg (by omega))
  exact ⟨_, step_of_fetch_none hf, by simp [State.reports, infoOfHalf], by simp⟩

/-- Settles O15: a fetch error and an instruction that does not complete write STATUS alone. -/
theorem fatalAndWaitingCyclesKeepTheState : Obligations.FatalAndWaitingCyclesKeepTheState := by
  intro s t hstep hstatus
  rcases step_cases hstep with ⟨_, rfl⟩ | ⟨_, _, _, _, rfl⟩ | ⟨_, i, u, _, _, he, rfl⟩
  · simp
  · simp at hstatus
  · rcases exec_cases he with hc | ⟨_, _, _, _, rfl⟩
    · simp [hc.2] at hstatus
    · simp

/-! ## What a whole cycle writes before it ends (R120, R125) -/

/-- The pieces of state that steps 1 to 4 of the coming cycle may write: those of its instruction's rule, or PC and
STATUS where it has none. -/
def State.cycleWrites (s : State) : List Part :=
  match s.nextInstr with
  | some i => i.writes
  | none => [.pc, .status]

/-- A cycle writes those pieces and then ends. -/
theorem step_frame {s t : State} (h : step s = .next t) : ∃ u, frame s.cycleWrites s u ∧ t = u.endCycle := by
  rcases step_cases h with ⟨hf, rfl⟩ | ⟨op, e, hf, hd, rfl⟩ | ⟨op, i, u, hf, hd, he, rfl⟩
  · exact ⟨_, by simp [State.cycleWrites, State.nextInstr, hf], rfl⟩
  · exact ⟨_, by simp [State.cycleWrites, State.nextInstr, hf, hd, Except.toOption], rfl⟩
  · exact ⟨u, by simpa [State.cycleWrites, nextInstr_of_decode hf hd] using exec_frame he, rfl⟩

theorem State.not_mem_cycleWrites {s : State} {p : Part} (hp : p ∉ [.pc, .status])
    (h : ∀ i, s.nextInstr = some i → p ∉ i.writes) : p ∉ s.cycleWrites := by
  unfold State.cycleWrites
  split
  · exact h _ ‹_›
  · exact hp

/-- No cycle writes its own inputs (R41). -/
theorem State.inputs_not_mem_cycleWrites (s : State) : .inputs ∉ s.cycleWrites :=
  State.not_mem_cycleWrites (by simp) fun i _ => by cases i <;> simp [Instr.writes]

/-- DT is written by FX15 alone (R223). -/
theorem State.dt_not_mem_cycleWrites {s : State} (h : ∀ x, s.nextInstr ≠ some (.ldDtVx x)) : .dt ∉ s.cycleWrites :=
  State.not_mem_cycleWrites (by simp) fun i hi => by
    cases i with
    | ldDtVx x => exact absurd hi (h x)
    | _ => simp [Instr.writes]

/-- ST is written by FX18 alone (R224). -/
theorem State.st_not_mem_cycleWrites {s : State} (h : ∀ x g, s.nextInstr ≠ some (.ldStVx x g)) :
    .st ∉ s.cycleWrites :=
  State.not_mem_cycleWrites (by simp) fun i hi => by
    cases i with
    | ldStVx x g => exact absurd hi (h x g)
    | _ => simp [Instr.writes]

theorem State.endCycle_beep_iff (s : State) :
    s.endCycle.status.beep = true ↔ s.inp.tickEn = true ∧ s.st = 0x01#8 := by simp

/-- Settles O11: a cycle that writes neither timer ends with DT, ST and tick_en as it began with them. -/
theorem everyCycleTicksBothTimers : Obligations.EveryCycleTicksBothTimers := by
  intro s t hstep hdt hst
  obtain ⟨u, hframe, rfl⟩ := step_frame hstep
  obtain ⟨hinp, -⟩ := hframe .inputs s.inputs_not_mem_cycleWrites
  have hdt' : u.dt = s.dt := hframe .dt (State.dt_not_mem_cycleWrites hdt)
  have hst' : u.st = s.st := hframe .st (State.st_not_mem_cycleWrites hst)
  rw [State.endCycle_beep_iff, State.endCycle_dt, State.endCycle_st, countDown_if_toNat, countDown_if_toNat, hinp, hdt',
    hst']
  exact ⟨rfl, rfl, Iff.rfl⟩

/-- Settles O9: a cycle that beeps ends with tick_en as it began with it, and from an ST of 1. -/
theorem tickCountsTheSoundTimerDownAndBeepsFromOne : Obligations.TickCountsTheSoundTimerDownAndBeepsFromOne := by
  refine ⟨fun s => ⟨fun hon => ⟨?_, ?_⟩, fun hoff => ?_⟩, fun s t hstep hbeep => ?_, fun x g s t h hzero => ?_⟩
  · rw [State.endCycle_st, countDown_if_toNat, if_pos hon]
  · simp [hon]
  · simp [hoff]
  · obtain ⟨u, hframe, rfl⟩ := step_frame hstep
    obtain ⟨hinp, -⟩ := hframe .inputs s.inputs_not_mem_cycleWrites
    obtain ⟨hon, hone⟩ := u.endCycle_beep_iff.1 hbeep
    refine ⟨hinp ▸ hon, ?_⟩
    rw [State.endCycle_st, if_pos hon, hone]
    rfl
  · have hst : t.st = s.reg x := by
      cases h
      rfl
    simp [hst, hzero]

end Sys2Proof.Machine
end

section
/-! SUPPORT. Proofs about control flow (spec/41_control_flow.md): return, jumps, call and skips, each from where it puts
PC (`Instr.nextPc`) and what it may write (`Instr.writes`), and the round trip of a call and a return. -/

namespace Sys2Proof.Machine

/-! ## An instruction that always completes -/

/-- An instruction that completes writes what its rule lists and puts PC where its rule says (R26, R117, R120). -/
theorem completesIn_of_complete {i : Instr} {s u : State} (h : exec i s = complete u) :
    ∃ t, completesIn i s t ∧ frame i.writes s t ∧ t.pc = i.nextPc s :=
  have hc : completesIn i s (u.report .completed .none 0#17) := ⟨h, rfl⟩
  ⟨_, hc, exec_frame h, (completion_of_completesIn hc).pc⟩

/-- Settles O27. -/
theorem jumpPutsPcAtTheAddress : Obligations.JumpPutsPcAtTheAddress := by
  intro nnn s
  obtain ⟨t, hc, hframe, hpc⟩ := completesIn_of_complete (i := .jpAddr nnn) (s := s) rfl
  exact ⟨t, hc, hpc, hframe⟩

/-- Settles O30: the sum does not reach 2^16 (`offsetTarget_toNat`). -/
theorem jumpWithOffsetAddsV0Exactly : Obligations.JumpWithOffsetAddsV0Exactly := by
  intro nnn s
  obtain ⟨t, hc, hframe, hpc⟩ := completesIn_of_complete (i := .jpV0Addr nnn) (s := s) rfl
  exact ⟨t, hc, hpc ▸ offsetTarget_toNat nnn (s.reg 0x0#4), hframe⟩

section
variable {i : Instr} {s u : State} {P : Prop} [Decidable P] {a b : Half}

/-- A skip by its two cases: PC goes to `a` where the tested condition holds, and to `b` where not. -/
theorem completesIn_of_nextPc_ite (h : exec i s = complete u) (hw : i.writes = [.pc, .status])
    (hpc : i.nextPc s = if P then a else b) :
    ∃ t, completesIn i s t ∧ frame [.pc, .status] s t ∧ (P → t.pc = a) ∧ (¬ P → t.pc = b) := by
  obtain ⟨t, hc, hframe, ht⟩ := completesIn_of_complete h
  rw [hpc] at ht
  exact ⟨t, hc, hw ▸ hframe, fun hp => ht.trans (if_pos hp), fun hp => ht.trans (if_neg hp)⟩

/-- The same for a skip that is taken where the condition fails. -/
theorem completesIn_of_nextPc_ite_not (h : exec i s = complete u) (hw : i.writes = [.pc, .status])
    (hpc : i.nextPc s = if P then b else a) :
    ∃ t, completesIn i s t ∧ frame [.pc, .status] s t ∧ (¬ P → t.pc = a) ∧ (P → t.pc = b) :=
  (completesIn_of_nextPc_ite h hw hpc).imp fun _ ⟨hc, hframe, hcases⟩ => ⟨hc, hframe, hcases.symm⟩

end

/-- Settles O29: SE by its condition, SNE by the failure of it. -/
theorem compareSkipsMovePcByFourOrTwo : Obligations.CompareSkipsMovePcByFourOrTwo := fun _ _ _ _ _ =>
  ⟨completesIn_of_nextPc_ite rfl rfl rfl, completesIn_of_nextPc_ite_not rfl rfl rfl,
    completesIn_of_nextPc_ite rfl rfl rfl, completesIn_of_nextPc_ite_not rfl rfl rfl⟩

/-- Settles O31: SKP by the key's bit, SKNP by the failure of it. -/
theorem keySkipsTestTheSnapshot : Obligations.KeySkipsTestTheSnapshot := by
  intro x gy s
  simp only [← Bool.not_eq_true]
  exact ⟨completesIn_of_nextPc_ite rfl rfl rfl, completesIn_of_nextPc_ite_not rfl rfl rfl⟩

/-! ## Return and call (R140, R142) -/

/-- An instruction that is a fatal error with its opcode reports it and changes nothing else (R119, R263). -/
theorem fatal_of_raiseFatal {i : Instr} {s : State} {cause : Cause} {op : Half}
    (h : exec i s = raiseFatal cause (infoOfHalf op) s) :
    ∃ t, exec i s = .next t ∧ t.reports .fatalError cause (op.setWidth 17) ∧ frame [.status] s t :=
  ⟨_, h, ⟨rfl, rfl, rfl⟩, by simp⟩

/-- Settles O26, by the two cases of a pop. -/
theorem returnPopsTheNewestAddress : Obligations.ReturnPopsTheNewestAddress := by
  intro gx gy s
  rcases s.pop_cases with ⟨hempty, hpop⟩ | ⟨hpos, hlt, v, hpop, hsp, hv⟩
  · refine ⟨fun k hk => absurd hempty (by omega), fun _ => fatal_of_raiseFatal ?_⟩
    simp only [exec, execRet, hpop]
  · have he : exec (.ret gx gy) s = complete (v.setPc (s.stackAt ⟨s.sp.val - 1, hlt⟩)) := by
      simp only [exec, execRet, hpop]
    refine ⟨fun k hk => ?_, fun hempty => absurd hempty hpos.ne'⟩
    obtain rfl : k = ⟨s.sp.val - 1, hlt⟩ := Fin.ext (Nat.eq_sub_of_add_eq hk.symm)
    have hstack : v.stack = s.stack := by rw [hv]
    exact ⟨_, ⟨he, rfl⟩, rfl, hsp, fun j => State.stackAt_congr hstack j, exec_frame he⟩

/-- Settles O28, by the two cases of a push. -/
theorem callPushesTheReturnAddress : Obligations.CallPushesTheReturnAddress := by
  intro nnn s
  rcases s.push_cases (s.pc + 2#16) with ⟨hfull, hpush⟩ | ⟨v, hlt, hpush, hsp, -, hstack⟩
  · refine ⟨fun k hk => absurd hfull (by omega), fun _ => fatal_of_raiseFatal ?_⟩
    simp only [exec, execCallAddr, hpush]
  · have he : exec (.callAddr nnn) s = complete (v.setPc (absolute nnn)) := by
      simp only [exec, execCallAddr, hpush]
    refine ⟨fun k hk => ?_, fun hfull => absurd hfull hlt.ne⟩
    have hother : ∀ j : Fin 16, j ≠ k → j.val ≠ s.sp.val := fun j hj h => hj (Fin.ext (h.trans hk))
    exact ⟨_, ⟨he, rfl⟩, (hstack k).trans (if_pos hk.symm), fun j hj => (hstack j).trans (if_neg (hother j hj)),
      hsp.trans (by rw [hk]), rfl, exec_frame he⟩

/-- A step runs the instruction it fetches and ends the cycle (R110, R115). -/
theorem step_of_nextInstr {s t : State} {i : Instr} (hi : s.nextInstr = some i) (he : exec i s = .next t) :
    step s = .next t.endCycle := by
  cases hf : s.fetch with
  | none => simp [State.nextInstr, hf] at hi
  | some op =>
    cases hd : decode op with
    | error e => simp [State.nextInstr, hf, hd, Except.toOption] at hi
    | ok j =>
      obtain rfl : j = i := Option.some.inj ((nextInstr_of_decode hf hd).symm.trans hi)
      exact step_of_decode_ok hf hd he

/-- Settles O32: CALL leaves pc0 + 2 at the entry that SP named (O28), the end of the cycle keeps the stack, and RET
takes the entry below the new SP (O26), which is that one. -/
theorem callThenReturnComesBackAfterTheCall : Obligations.CallThenReturnComesBackAfterTheCall := by
  intro s t u nnn gx gy hcall hfree hstep hret hstep'
  obtain ⟨called, ⟨hexec, -⟩, hpushed, -, hsp, -⟩ := (callPushesTheReturnAddress nnn s).1 ⟨s.sp.val, hfree⟩ rfl
  obtain rfl : called.endCycle = t := Host.Outcome.next.inj ((step_of_nextInstr hcall hexec).symm.trans hstep)
  obtain ⟨returned, ⟨hexec', -⟩, hpc, hsp', -⟩ :=
    (returnPopsTheNewestAddress gx gy called.endCycle).1 ⟨s.sp.val, hfree⟩ (by rw [State.endCycle_sp, hsp])
  obtain rfl : returned.endCycle = u := Host.Outcome.next.inj ((step_of_nextInstr hret hexec').symm.trans hstep')
  refine ⟨?_, Fin.ext ?_⟩
  · calc returned.endCycle.pc = returned.pc := State.endCycle_pc returned
      _ = called.endCycle.stackAt ⟨s.sp.val, hfree⟩ := hpc
      _ = called.stackAt ⟨s.sp.val, hfree⟩ := State.stackAt_congr called.endCycle_stack _
      _ = s.pc + 2#16 := hpushed
  · rw [State.endCycle_sp, hsp']

end Sys2Proof.Machine
end

section
/-! SUPPORT. Proofs about immediate loads, immediate add, index load and random (spec/42_load_imm.md). -/

namespace Sys2Proof.Machine

/-- An instruction that completes with one byte in V[X] and PC at pc0 + 2 writes no other register, VF included, and no
other piece of state (R26, R117, R120). -/
theorem completesIn_of_setReg {i : Instr} {s : State} {x : Nibble} {b : Byte}
    (h : exec i s = complete (s.setReg x b).advance) :
    ∃ t, completesIn i s t ∧ t.reg x = b ∧ onlyRegs [x] s t ∧ t.pc = s.pc + 2#16 ∧
      frame [.regs, .pc, .status] s t := by
  have hother : ∀ r, r ∉ [x] → (s.setReg x b).reg r = s.reg r := fun r hr =>
    (s.setReg_reg x r b).trans (if_neg (List.ne_of_not_mem_cons hr))
  exact ⟨_, ⟨h, rfl⟩, (s.setReg_reg x x b).trans (if_pos rfl), hother, rfl, by simp⟩

/-- Settles O33: 6XNN by its write of V[X], ANNN by its write of I. -/
theorem immediateLoadsWriteTheImmediate : Obligations.ImmediateLoadsWriteTheImmediate := by
  intro x nn nnn s
  have he : exec (.ldIAddr nnn) s = complete (s.setI (absolute nnn)).advance := rfl
  exact ⟨completesIn_of_setReg rfl, _, ⟨he, rfl⟩, rfl, rfl, exec_frame he⟩

/-- Settles O34: the byte written is the sum of two bytes, which is taken mod 256. -/
theorem immediateAddWrapsAndWritesNoFlag : Obligations.ImmediateAddWrapsAndWritesNoFlag := by
  intro x nn s
  obtain ⟨t, hc, hsum, hrest⟩ := completesIn_of_setReg (i := .addVxByte x nn) (s := s) rfl
  exact ⟨t, hc, hsum ▸ BitVec.toNat_add (s.reg x) nn, hrest⟩

/-- Settles O35. -/
theorem randomWritesTheMaskedRandomByte : Obligations.RandomWritesTheMaskedRandomByte :=
  fun _ _ _ => completesIn_of_setReg rfl

end Sys2Proof.Machine
end

section
/-! SUPPORT. Proofs about the ALU group (spec/43_alu.md): copy and logic write V[X] alone; the other five write VF first
and then V[X] (R190), so that V[X] holds the result for every X, and VF the flag unless X is VF. -/

namespace Sys2Proof.Machine

/-- Settles O36: each is one write of V[X], so VF is not written (R180). -/
theorem copyAndLogicWriteOnlyVx : Obligations.CopyAndLogicWriteOnlyVx := fun _ _ _ =>
  ⟨completesIn_of_setReg rfl, completesIn_of_setReg rfl, completesIn_of_setReg rfl, completesIn_of_setReg rfl⟩

/-! ## The flag -/

theorem flagByte_decide (P : Prop) [Decidable P] : flagByte (decide P) = if P then 0x01#8 else 0x00#8 := by
  simp only [flagByte, decide_eq_true_eq]

theorem flagByte_toNat (flag : Bool) : (flagByte flag).toNat = flag.toNat := by
  cases flag <;> rfl

/-- A bit of a byte, as VF holds it, is that binary digit of the byte. -/
theorem flagByte_getLsbD_toNat (b : Byte) (k : Nat) : (flagByte (b.getLsbD k)).toNat = b.toNat / 2 ^ k % 2 :=
  (flagByte_toNat _).trans (Nat.toNat_testBit b.toNat k)

/-! ## A flag and a result (R190) -/

section
variable {i : Instr} {s : State} {x : Nibble}

/-- An instruction that completes with a flag in VF and then one byte in V[X], and PC at pc0 + 2, leaves the byte in V[X]
for every X, and writes no other register than these two and no other piece of state (R26, R117, R120, R190). -/
theorem completesIn_of_setFlagThenReg {flag : Bool} {b : Byte}
    (h : exec i s = complete (s.setFlagThenReg flag x b).advance) :
    ∃ t, completesIn i s t ∧ t.reg x = b ∧ (x ≠ vF → t.reg vF = flagByte flag) ∧ onlyRegs [x, vF] s t ∧
      t.pc = s.pc + 2#16 ∧ frame [.regs, .pc, .status] s t := by
  have hreg := s.setFlagThenReg_reg flag x (b := b)
  have hflag (hx : x ≠ vF) : (s.setFlagThenReg flag x b).reg vF = flagByte flag := by
    rw [hreg, if_neg hx.symm, if_pos rfl]
  have hother : onlyRegs [x, vF] s (s.setFlagThenReg flag x b) := fun r hr => by
    rw [List.mem_pair, not_or] at hr
    rw [hreg, if_neg hr.1, if_neg hr.2]
  exact ⟨_, ⟨h, rfl⟩, (hreg x).trans (if_pos rfl), hflag, hother, rfl, by simp⟩

/-- What SUB and SUBN share, `a` being the minuend and `b` the subtrahend (R186, R188). -/
theorem completesIn_of_subtract {a b : Byte}
    (h : exec i s = complete (s.setFlagThenReg (noBorrowOf a b) x (a - b)).advance) :
    ∃ t, completesIn i s t ∧ (t.reg x).toNat = (a.toNat + 256 - b.toNat) % 256 ∧
      (x ≠ vF → t.reg vF = if b.toNat ≤ a.toNat then 0x01#8 else 0x00#8) ∧
      onlyRegs [x, vF] s t ∧ t.pc = s.pc + 2#16 ∧ frame [.regs, .pc, .status] s t := by
  obtain ⟨t, hc, hdiff, hflag, hrest⟩ := completesIn_of_setFlagThenReg h
  have hmod : (a - b).toNat = (a.toNat + 256 - b.toNat) % 256 := by
    have hb := b.isLt
    rw [BitVec.toNat_sub]
    omega
  exact ⟨t, hc, hdiff ▸ hmod, fun hx => (hflag hx).trans (flagByte_decide _), hrest⟩

end

/-- Settles O37: the sum of two bytes is taken mod 256, and the carry is that it passes 255 before. -/
theorem addWritesTheSumAndTheCarry : Obligations.AddWritesTheSumAndTheCarry := by
  intro x y s
  obtain ⟨t, hc, hsum, hcarry, hrest⟩ := completesIn_of_setFlagThenReg (i := .addVxVy x y) (s := s) rfl
  exact ⟨t, hc, hsum ▸ BitVec.toNat_add (s.reg x) (s.reg y), fun hx => (hcarry hx).trans (flagByte_decide _), hrest⟩

/-- Settles O38: SUBN is SUB with the operands exchanged. -/
theorem subtractsWriteTheDifferenceAndNotBorrow : Obligations.SubtractsWriteTheDifferenceAndNotBorrow := fun _ _ _ =>
  ⟨completesIn_of_subtract rfl, completesIn_of_subtract rfl⟩

/-- Settles O39: SHR halves the byte and loses its last binary digit, SHL doubles it mod 256 and loses the first, which
is the quotient by 128, since a byte is below 256. -/
theorem shiftsWriteTheShiftedByteAndTheLostBit : Obligations.ShiftsWriteTheShiftedByteAndTheLostBit := by
  intro x y s
  constructor
  · obtain ⟨t, hc, hhalf, hbit, hrest⟩ := completesIn_of_setFlagThenReg (i := .shrVxVy x y) (s := s) rfl
    have hlow : (flagByte (lowBitOf (s.reg x))).toNat = (s.reg x).toNat % 2 :=
      (flagByte_getLsbD_toNat (s.reg x) 0).trans (by rw [pow_zero, Nat.div_one])
    have hshift : (s.reg x >>> 1).toNat = (s.reg x).toNat / 2 := BitVec.toNat_ushiftRight (s.reg x) 1
    exact ⟨t, hc, hhalf ▸ hshift, fun hx => hbit hx ▸ hlow, hrest⟩
  · obtain ⟨t, hc, hdouble, hbit, hrest⟩ := completesIn_of_setFlagThenReg (i := .shlVxVy x y) (s := s) rfl
    have hhigh : (flagByte (highBitOf (s.reg x))).toNat = (s.reg x).toNat / 128 :=
      (flagByte_getLsbD_toNat (s.reg x) 7).trans (Nat.mod_eq_of_lt (Nat.div_lt_of_lt_mul (s.reg x).isLt))
    have hshift : (s.reg x <<< 1).toNat = (s.reg x).toNat * 2 % 256 := by
      rw [BitVec.toNat_shiftLeft, Nat.shiftLeft_eq]
    exact ⟨t, hc, hdouble ▸ hshift, fun hx => hbit hx ▸ hhigh, hrest⟩

end Sys2Proof.Machine
end

section
/-! SUPPORT. Proofs about the display (spec/44_display.md) and about the range of data accesses that DRW shares with
FX33, FX55 and FX65 (R205): the sprite's bit on a pixel, clearing and drawing, the host's read port, and MEM_RANGE. -/

namespace Sys2Proof.Machine

/-- Settles O40. -/
theorem clearScreenClearsEveryPixel : Obligations.ClearScreenClearsEveryPixel := by
  intro gx gy s
  have he : exec (.cls gx gy) s = complete ({ s with fb := Framebuffer.clear } : State).advance := rfl
  exact ⟨_, ⟨he, rfl⟩, fun px py _ _ => Framebuffer.pixel_clear px py, rfl, exec_frame he⟩

/-! ## The sprite's bit on a pixel (R201, R204) -/

/-- A whole sprite row, counted from its first column: column c has the bit 7 - c. -/
theorem columnBit_eight (row : Byte) (x0 px : Nat) : columnBit row x0 8 px =
    (List.range 8).any fun c => decide (px = (x0 + c) % 64) && row.getLsbD (7 - c) := by
  rw [columnBit, Bool.eq_iff_iff]
  simp only [List.any_eq_true, List.mem_range, Bool.and_eq_true, decide_eq_true_eq]
  constructor
  · rintro ⟨k, hk, hpx, hbit⟩
    exact ⟨7 - k, by omega, hpx, by rwa [Nat.sub_sub_self (Nat.le_of_lt_succ hk)]⟩
  · rintro ⟨c, hc, hpx, hbit⟩
    exact ⟨7 - c, by omega, by rwa [Nat.sub_sub_self (Nat.le_of_lt_succ hc)], hbit⟩

/-- The bit that drawing puts on a pixel is the one the statements speak of. -/
theorem rowsBit_eq_spriteBit (rows : List Byte) (vx vy : Byte) (px py : Nat) :
    rowsBit (vx.toNat % 64) (vy.toNat % 32) 0 rows px py = spriteBit rows vx vy px py := by
  simp only [rowsBit, spriteBit, columnBit_eight, Nat.zero_add, List.and_any_distrib_left, Bool.and_assoc,
    Bool.and_left_comm]

/-- A sprite has its 1 bits on the screen: both coordinates wrap. -/
theorem spriteBit_on_screen {rows : List Byte} {vx vy : Byte} {px py : Nat} (h : spriteBit rows vx vy px py = true) :
    px < 64 ∧ py < 32 := by
  simp only [spriteBit, List.any_eq_true, Bool.and_eq_true, decide_eq_true_eq] at h
  obtain ⟨r, -, c, -, ⟨rfl, rfl⟩, -⟩ := h
  exact ⟨Nat.mod_lt _ (by decide), Nat.mod_lt _ (by decide)⟩

/-! ## DRW (R204, R205) -/

/-- The rows of a sprite as they stand in MEM, from I on. -/
def State.spriteRows (s : State) (n : Nibble) : List Byte :=
  (List.range n.toNat).map fun r => s.mem.read (s.i.toNat + r)

/-- DRW of a sprite that lies in MEM completes with the sprite drawn and the collision in VF. -/
theorem exec_drwVxVyN {x y n : Nibble} {s : State} (hin : n.toNat = 0 ∨ s.i.toNat + n.toNat ≤ 0x1000) :
    ∃ drawn : Canvas,
      exec (.drwVxVyN x y n) s
        = complete (({ s with fb := drawn.fb } : State).setReg vF (flagByte drawn.collision)).advance ∧
      (∀ px py, drawn.fb.pixel px py = (s.pixel px py ^^ spriteBit (s.spriteRows n) (s.reg x) (s.reg y) px py)) ∧
      (drawn.collision = true ↔
        ∃ px py, spriteBit (s.spriteRows n) (s.reg x) (s.reg y) px py = true ∧ s.pixel px py = true) := by
  have hload : s.mem.loadBytes (s.effectiveAddress 0) n.toNat = .ok (s.spriteRows n) := s.mem.loadBytes_ok _ _ hin
  have hlen : (s.spriteRows n).length ≤ 32 := by
    have hn := n.isLt
    simp only [State.spriteRows, List.length_map, List.length_range]
    omega
  have hdraw := drawSprite_spec s.fb (s.reg x) (s.reg y) (s.spriteRows n) hlen
  simp only [rowsBit_eq_spriteBit] at hdraw
  exact ⟨_, by simp only [exec, execDrwVxVyN, hload], hdraw⟩

/-- Settles O41, by the two values of the collision bit. -/
theorem drawComposesByXorAndReportsCollision : Obligations.DrawComposesByXorAndReportsCollision := by
  intro x y n s hin rows
  obtain ⟨drawn, he, hpixel, hcollision⟩ := exec_drwVxVyN (x := x) (y := y) hin
  refine ⟨_, ⟨he, rfl⟩, fun px py _ _ => hpixel px py, ?_, exec_onlyRegs he, rfl, exec_frame he⟩
  cases hc : drawn.collision with
  | true =>
    obtain ⟨px, py, hbit, hset⟩ := hcollision.1 hc
    obtain ⟨hpx, hpy⟩ := spriteBit_on_screen hbit
    exact .inl ⟨by simp [flagByte], px, py, hpx, hpy, hbit, hset⟩
  | false =>
    refine .inr ⟨by simp [flagByte], fun px py _ _ hbit => Bool.eq_false_iff.2 fun hset => ?_⟩
    exact Bool.eq_false_iff.1 hc (hcollision.2 ⟨px, py, hbit, hset⟩)

/-- Settles O42: both drawings compose the same sprite at the same place (O41), and a second XOR of a bit undoes the
first. -/
theorem drawingTwiceRestoresTheScreen : Obligations.DrawingTwiceRestoresTheScreen := by
  intro x y n s t u hin hx hy hfirst hsecond
  obtain ⟨t', ⟨hfirst', -⟩, hpixel, -, hregs, -, hframe⟩ := drawComposesByXorAndReportsCollision x y n s hin
  obtain rfl : t = t' := Host.Outcome.next.inj (hfirst.symm.trans hfirst')
  have hi : t.i = s.i := hframe .index (by simp)
  have hmem : ∀ a, t.mem.read a = s.mem.read a := hframe .mem (by simp)
  have hvx : t.reg x = s.reg x := hregs x (by simpa using hx)
  have hvy : t.reg y = s.reg y := hregs y (by simpa using hy)
  obtain ⟨u', ⟨hsecond', -⟩, hpixel', hflag, -⟩ := drawComposesByXorAndReportsCollision x y n t (hi ▸ hin)
  obtain rfl : u = u' := Host.Outcome.next.inj (hsecond.symm.trans hsecond')
  simp only [hi, hmem, hvx, hvy] at hpixel' hflag
  refine ⟨fun px py hpx hpy => ?_, ?_⟩
  · rw [hpixel' px py hpx hpy, hpixel px py hpx hpy, Bool.xor_assoc, Bool.xor_self, Bool.xor_false]
  · rcases hflag with ⟨hone, px, py, hpx, hpy, hbit, hset⟩ | ⟨hzero, hclear⟩
    · refine iff_of_true hone ⟨px, py, hpx, hpy, hbit, ?_⟩
      simpa [hpixel px py hpx hpy, hbit] using hset
    · refine iff_of_false (by simp [hzero]) ?_
      rintro ⟨px, py, hpx, hpy, hbit, hwasClear⟩
      have hnow := hclear px py hpx hpy hbit
      simp [hpixel px py hpx hpy, hbit, hwasClear] at hnow

/-! ## The host's read port (R200, R202) -/

theorem pixelIndex_eq (x y : Nat) : pixelIndex x y = y * 64 + x := rfl

/-- Rows of 64 bits in one number, the first row lowest: bit x of row y is bit y * 64 + x. -/
theorem testBit_foldr_rows (rows : List (BitVec 64)) (y : Nat) {x : Nat} (hx : x < 64) :
    (rows.foldr (fun (row : BitVec 64) above => row.toNat + 2 ^ Config.fbWidth * above) 0).testBit (pixelIndex x y)
      = (rows.getD y 0#64).getLsbD x := by
  induction rows generalizing y with
  | nil => simp
  | cons row rows ih =>
    rw [List.foldr_cons, Nat.add_comm, Nat.testBit_two_pow_mul_add _ row.isLt]
    cases y with
    | zero => simp [pixelIndex_eq, hx, BitVec.getLsbD]
    | succ y =>
      have hnext : pixelIndex x (y + 1) = pixelIndex x y + 64 := by simp only [pixelIndex_eq]; omega
      rw [if_neg (by omega), hnext, Nat.add_sub_cancel, ih, List.getD_cons_succ]

/-- Settles O43. -/
theorem readPortOrdersPixelsByRow : Obligations.ReadPortOrdersPixelsByRow := by
  intro fb x y hx hy
  have hlt : pixelIndex x y < 2048 := by rw [pixelIndex_eq]; omega
  refine ⟨?_, hlt, ?_⟩
  · rw [Framebuffer.bits, BitVec.getLsbD_ofNat, testBit_foldr_rows _ _ hx]
    simp [hlt, Framebuffer.pixel, hy, List.getD_eq_getElem?_getD]
  · simp only [pixelOfIndex, pixelIndex_eq, Config.fbWidth, Prod.mk.injEq]
    omega

/-! ## Accesses beyond MEM (R205, R262) -/

theorem Memory.range_of_loadBytes_error {m : Memory} {base n a : Nat} (h : m.loadBytes base n = .error a) :
    0 < n ∧ 0x1000 < base + n := by
  by_contra hr
  rw [Memory.loadBytes_ok m base n (by omega)] at h
  cases h

theorem Memory.range_of_storeBytes_error {m : Memory} {base a : Nat} {bs : List Byte}
    (h : m.storeBytes base bs = .error a) : 0 < bs.length ∧ 0x1000 < base + bs.length := by
  by_contra hr
  obtain ⟨m', h', -⟩ := Memory.storeBytes_ok m base bs (by rw [← List.length_eq_zero_iff]; omega)
  cases h'.symm.trans h

/-- An instruction whose range leaves MEM raises MEM_RANGE with the lowest failing address. -/
theorem exec_of_range_error {i : Instr} {s : State} (hpos : 0 < i.accessedBytes)
    (hout : 0x1000 < s.i.toNat + i.accessedBytes) :
    exec i s = raiseFatal .memRange (infoOfAddress (max s.i.toNat 0x1000)) s := by
  have hload : s.mem.loadBytes (s.effectiveAddress 0) i.accessedBytes = .error (max s.i.toNat 0x1000) :=
    s.mem.loadBytes_error _ _ hpos.ne' hout
  have hstore (bs : List Byte) (hlen : bs.length = i.accessedBytes) :
      s.mem.storeBytes (s.effectiveAddress 0) bs = .error (max s.i.toNat 0x1000) :=
    s.mem.storeBytes_error _ bs (List.ne_nil_of_length_pos (hlen ▸ hpos)) (hlen ▸ hout)
  cases i with
  | drwVxVyN x y n =>
    rw [Instr.accessedBytes] at hload
    simp only [exec, execDrwVxVyN, hload]
  | ldVxMemI x =>
    rw [Instr.accessedBytes] at hload
    simp only [exec, execLdVxMemI, hload]
  | ldBVx x _ => simp only [exec, execLdBVx, hstore (bcdDigits (s.reg x)) rfl]
  | ldMemIVx x => simp only [exec, execLdMemIVx, hstore (s.regsUpTo x) (s.regsUpTo_length x)]
  | _ => exact absurd hpos (Nat.lt_irrefl 0)

/-- Only an instruction whose range leaves MEM reports MEM_RANGE. -/
theorem range_of_memRange {i : Instr} {s t : State} (h : exec i s = .next t) (hcause : t.status.cause = .memRange) :
    0 < i.accessedBytes ∧ 0x1000 < s.i.toNat + i.accessedBytes := by
  cases i with
  | drwVxVyN _ _ _ | ldVxMemI _ =>
    simp only [exec, execDrwVxVyN, execLdVxMemI] at h
    split at h
    · exact Memory.range_of_loadBytes_error ‹_›
    · cases h
      cases hcause
  | ldBVx _ _ =>
    simp only [exec, execLdBVx] at h
    split at h
    · exact Memory.range_of_storeBytes_error ‹_›
    · cases h
      cases hcause
  | ldMemIVx x =>
    simp only [exec, execLdMemIVx] at h
    split at h
    · have hrange := Memory.range_of_storeBytes_error ‹_›
      rwa [s.regsUpTo_length x] at hrange
    · cases h
      cases hcause
  | ret _ _ | callAddr _ | ldVxK _ _ =>
    simp only [exec, execRet, execCallAddr, execLdVxK] at h
    split at h <;> cases h <;> cases hcause
  | _ =>
    cases h
    cases hcause

/-- STATUS.info is wide enough for every failing address, the largest being 0x1000E (R64, R263). -/
theorem infoOfAddress_toNat {a : Nat} (h : a < 0x20000) : (infoOfAddress a).toNat = a :=
  Nat.mod_eq_of_lt h

/-- Settles O53. -/
theorem rangeErrorsReportTheLowestFailingAddress : Obligations.RangeErrorsReportTheLowestFailingAddress := by
  intro i s
  refine ⟨fun hpos hout => ?_, fun t => range_of_memRange⟩
  have hi := s.i.isLt
  exact ⟨_, exec_of_range_error hpos hout, rfl, rfl, infoOfAddress_toNat (by omega), by simp⟩

end Sys2Proof.Machine
end

section
/-! SUPPORT. Proofs about the timer and key-wait instructions (spec/45_timer_key.md): the key wait by whether there is a
least pressed key, and the timers by what the instruction leaves for the tick of its own cycle. -/

namespace Sys2Proof.Machine

/-- Settles O46: with no pressed key the wait changes STATUS alone, else the least one is below 16, so V[X] holds it
exactly. -/
theorem keyWaitTakesTheLeastPressedKey : Obligations.KeyWaitTakesTheLeastPressedKey := by
  intro x gy s
  cases hkey : lowestKey s.inp.keys with
  | none =>
    have he : exec (.ldVxK x gy) s = waitForKey s := by simp only [exec, execLdVxK, hkey]
    exact ⟨fun _ => ⟨_, he, ⟨rfl, rfl, rfl⟩, by simp⟩, fun hsome => absurd (lowestKey_none.1 hkey) hsome⟩
  | some k =>
    refine ⟨fun hnone => absurd (hkey.symm.trans (lowestKey_none.2 hnone)) (Option.some_ne_none k), fun _ => ?_⟩
    obtain ⟨hlt, hpressed, hleast⟩ := lowestKey_some hkey
    obtain ⟨t, hc, hreg, hrest⟩ := completesIn_of_setReg (i := .ldVxK x gy) (s := s) (x := x) (b := BitVec.ofNat 8 k)
      (by simp only [exec, execLdVxK, hkey])
    have hval : (t.reg x).toNat = k := by
      rw [hreg, BitVec.toNat_ofNat, Nat.mod_eq_of_lt (hlt.trans (by decide))]
    exact ⟨t, hc, by rwa [hval], by rwa [hval], by rwa [hval], hrest⟩

/-- Settles O44: the frame keeps DT and tick_en, so the tick counts down the value that was read. -/
theorem readDelayTimerComesBeforeTheTick : Obligations.ReadDelayTimerComesBeforeTheTick := by
  intro x gy s
  obtain ⟨t, hc, hreg, honly, hpc, hframe⟩ := completesIn_of_setReg (i := .ldVxDt x gy) (s := s) rfl
  refine ⟨t, hc, hreg, honly, hpc, hframe, fun hon => ?_⟩
  have hdt : t.dt = s.dt := hframe .dt (by decide)
  obtain ⟨hinp, -⟩ := hframe .inputs (by decide)
  rw [(tickCountsTheDelayTimerDown t).1 (hinp ▸ hon), hdt]

/-- Settles O45: the state each instruction leaves has V[X] in the timer, and its tick is that of O8 and O9. -/
theorem timerWritesAreTickedInTheirOwnCycle : Obligations.TimerWritesAreTickedInTheirOwnCycle := by
  intro x gy s
  have hdt : exec (.ldDtVx x) s = complete ({ s with dt := s.reg x } : State).advance := rfl
  have hst : exec (.ldStVx x gy) s = complete ({ s with st := s.reg x } : State).advance := rfl
  obtain ⟨htick, -⟩ := tickCountsTheSoundTimerDownAndBeepsFromOne
  exact ⟨⟨_, ⟨hdt, rfl⟩, rfl, rfl, exec_frame hdt, fun hon => (tickCountsTheDelayTimerDown _).1 hon⟩,
    ⟨_, ⟨hst, rfl⟩, rfl, rfl, exec_frame hst, fun hon => (htick _).1 hon⟩⟩

end Sys2Proof.Machine
end

section
/-! SUPPORT. Proofs about index and memory (spec/46_index_memory.md): FX1E and FX29 by what they leave in I, and FX33,
FX55 and FX65 where their range lies in MEM, by which byte stands at which address. -/

namespace Sys2Proof.Machine

/-! ## BCD, block store and block load inside MEM (R237, R238, R239) -/

theorem bcdDigits_getD_toNat (b : Byte) (r : Nat) :
    ((bcdDigits b).getD r 0x00#8).toNat = [b.toNat / 100, b.toNat / 10 % 10, b.toNat % 10].getD r 0 := by
  rw [← bcdDigits_toNat]
  exact (List.getD_map (bcdDigits b) 0x00#8 BitVec.toNat).symm

/-- FX33 inside MEM completes with the three digits at I on. -/
theorem exec_ldBVx {x gy : Nibble} {s : State} (hin : s.i.toNat + 2 < 0x1000) :
    ∃ m, exec (.ldBVx x gy) s = complete ({ s with mem := m } : State).advance ∧
      ∀ r, r < 3 → m.read (s.effectiveAddress r) = (bcdDigits (s.reg x)).getD r 0x00#8 := by
  have hlen : (bcdDigits (s.reg x)).length = 3 := rfl
  obtain ⟨m, hm, hread, -⟩ := s.mem.storeBytes_ok (s.effectiveAddress 0) (bcdDigits (s.reg x))
    (.inr (by rw [hlen, State.effectiveAddress]; omega))
  rw [hlen] at hread
  refine ⟨m, by simp only [exec, execLdBVx, hm], fun r hr => ?_⟩
  have hplace : s.effectiveAddress r = s.effectiveAddress 0 + r := rfl
  rw [hread, hplace, if_pos (by omega), Nat.add_sub_cancel_left]

/-- Settles O50: the digits stand at I to I + 2, and hundreds, tens and ones make up the number. -/
theorem bcdStoresTheThreeDigits : Obligations.BcdStoresTheThreeDigits := by
  intro x gy s hin
  obtain ⟨m, he, hread⟩ := exec_ldBVx (x := x) (gy := gy) hin
  have hdigit (r : Nat) (hr : r < 3) := (congrArg BitVec.toNat (hread r hr)).trans (bcdDigits_getD_toNat (s.reg x) r)
  have hhundreds : (m.read (s.effectiveAddress 0)).toNat = (s.reg x).toNat / 100 := hdigit 0 (by decide)
  have htens : (m.read (s.effectiveAddress 1)).toNat = (s.reg x).toNat / 10 % 10 := hdigit 1 (by decide)
  have hones : (m.read (s.effectiveAddress 2)).toNat = (s.reg x).toNat % 10 := hdigit 2 (by decide)
  have hnumber : 100 * (m.read (s.effectiveAddress 0)).toNat + 10 * (m.read (s.effectiveAddress 1)).toNat
      + (m.read (s.effectiveAddress 2)).toNat = (s.reg x).toNat := by
    rw [hhundreds, htens, hones]
    omega
  exact ⟨_, ⟨he, rfl⟩, hhundreds, htens, hones, hnumber, exec_memKeptOutside he, rfl, exec_frame he⟩

/-- Settles O51. -/
theorem storeRegistersWritesV0ToVx : Obligations.StoreRegistersWritesV0ToVx := by
  intro x s hin
  obtain ⟨m, he, hstored, hkept⟩ := exec_ldMemIVx hin
  exact ⟨_, ⟨he, rfl⟩, hstored, hkept, rfl, exec_frame he⟩

/-- The bytes FX65 loads, from I on (R239). -/
def State.bytesAtIndex (s : State) (n : Nat) : List Byte :=
  (List.range n).map fun r => s.mem.read (s.effectiveAddress r)

theorem State.bytesAtIndex_length (s : State) (n : Nat) : (s.bytesAtIndex n).length = n := by
  rw [State.bytesAtIndex, List.length_map, List.length_range]

theorem State.bytesAtIndex_getD (s : State) {n r : Nat} (h : r < n) :
    (s.bytesAtIndex n).getD r 0x00#8 = s.mem.read (s.effectiveAddress r) := by
  simp [State.bytesAtIndex, List.getD_eq_getElem?_getD, h]

/-- FX65 inside MEM completes with V0 to VX written from I on. -/
theorem exec_ldVxMemI {x : Nibble} {s : State} (hin : s.i.toNat + x.toNat < 0x1000) :
    exec (.ldVxMemI x) s = complete (s.setRegs (s.bytesAtIndex (x.toNat + 1))).advance := by
  have hload : s.mem.loadBytes (s.effectiveAddress 0) (x.toNat + 1) = .ok (s.bytesAtIndex (x.toNat + 1)) :=
    s.mem.loadBytes_ok _ _ (.inr (by rw [State.effectiveAddress]; omega))
  simp only [exec, execLdVxMemI, hload]

/-- Settles O52: FX65 writes exactly the registers that its bytes reach. -/
theorem loadRegistersReadsV0ToVx : Obligations.LoadRegistersReadsV0ToVx := by
  intro x s hin
  have he := exec_ldVxMemI hin
  have hreg := s.setRegs_reg (s.bytesAtIndex (x.toNat + 1))
  rw [s.bytesAtIndex_length] at hreg
  refine ⟨_, ⟨he, rfl⟩, fun r hr => ?_, fun r hr => (hreg r).trans (if_neg (by omega)), rfl, exec_frame he⟩
  have hlt : r.toNat < x.toNat + 1 := Nat.lt_succ_of_le hr
  exact (hreg r).trans ((if_pos hlt).trans (s.bytesAtIndex_getD hlt))

/-- Settles O54: the load reads the addresses that the store wrote (O51, O52). -/
theorem loadAfterStoreRestoresTheRegisters : Obligations.LoadAfterStoreRestoresTheRegisters := by
  intro x s t u w hin hstore hmem hi hload r hr
  obtain ⟨t', ⟨hstore', -⟩, hstored, -, -, hframe⟩ := storeRegistersWritesV0ToVx x s hin
  obtain rfl : t = t' := Host.Outcome.next.inj (hstore.symm.trans hstore')
  have hindex : u.i = s.i := hi.trans (hframe .index (by decide))
  obtain ⟨w', ⟨hload', -⟩, hloaded, -⟩ := loadRegistersReadsV0ToVx x u (hindex ▸ hin)
  obtain rfl : w = w' := Host.Outcome.next.inj (hload.symm.trans hload')
  calc w.reg r = u.mem.read (u.effectiveAddress r.toNat) := hloaded r hr
    _ = t.mem.read (s.effectiveAddress r.toNat) := by rw [hmem, State.effectiveAddress, State.effectiveAddress, hindex]
    _ = s.reg r := hstored r hr

/-! ## Index arithmetic and font address (R235, R236) -/

/-- Settles O48: the flag is of the exact sum, which I keeps mod 0x10000. -/
theorem addIndexFlagsSumsAboveTheAddressRange : Obligations.AddIndexFlagsSumsAboveTheAddressRange := by
  intro x gy s
  have he : exec (.addIVx x gy) s = complete
      ((s.setReg vF (flagByte (indexOverflowOf s.i (s.reg x)))).setI (s.i + (s.reg x).setWidth 16)).advance := rfl
  have hsum : (s.i + (s.reg x).setWidth 16).toNat = (s.i.toNat + (s.reg x).toNat) % 0x10000 := by
    rw [BitVec.toNat_add, BitVec.toNat_setWidth_of_le (by decide)]
  have hflag : (s.setReg vF (flagByte (indexOverflowOf s.i (s.reg x)))).reg vF
      = if 0xFFF < s.i.toNat + (s.reg x).toNat then 0x01#8 else 0x00#8 :=
    (s.setReg_reg vF vF _).trans ((if_pos rfl).trans (flagByte_decide _))
  exact ⟨_, ⟨he, rfl⟩, hsum, hflag, exec_onlyRegs he, rfl, exec_frame he⟩

/-- Settles O49: the last glyph begins 75 bytes after FONT_BASE, and the font ends below 0x200. -/
theorem fontAddressIsBasePlusFiveTimesTheDigit : Obligations.FontAddressIsBasePlusFiveTimesTheDigit := by
  intro x gy s
  have he : exec (.ldFVx x gy) s = complete (s.setI (glyphAddress (s.reg x))).advance := rfl
  have hglyph := glyphAddress_toNat (s.reg x)
  have hbelow : (glyphAddress (s.reg x)).toNat < 0x200 := by
    have hend := fontBase_add_fontSize_le
    omega
  exact ⟨_, ⟨he, rfl⟩, hglyph, hbelow, rfl, exec_frame he⟩

end Sys2Proof.Machine
end

section
/-! SUPPORT. Proofs about errors (spec/60_exceptions.md): the table of R260; the error of a cycle as a function of PC,
MEM, SP and I; and from it what each cause means, and that a fatal error repeats. -/

namespace Sys2Proof.Machine

/-! ## Legal STATUS (R260) -/

/-- A legal STATUS tells a fatal error by its cause. -/
theorem Status.legal.fatalError_iff {st : Status} (h : st.legal) :
    st.status = .fatalError ↔ st.cause ≠ .none ∧ st.cause ≠ .decode := by
  unfold Status.legal at h
  split at h
  next hst => simp [hst, h.1]
  next hst => simp [hst, h.1]
  next hst => simp [hst, h]
  next hst => rcases h with h | h | h | h <;> simp [hst, h]

theorem exec_legal {i : Instr} {s t : State} (h : exec i s = .next t) : t.status.legal := by
  rcases exec_shape i s with ⟨u, hu⟩ | hu | ⟨cause, info, ⟨hnone, hdecode⟩, hu⟩ <;>
    obtain rfl := Host.Outcome.next.inj (hu.symm.trans h)
  · exact ⟨rfl, rfl⟩
  · exact ⟨rfl, rfl⟩
  · cases cause with
    | none => exact absurd rfl hnone
    | decode => exact absurd rfl hdecode
    | _ => simp [Status.legal]

/-- Settles O18, by the three cases of a cycle; its end changes no field of STATUS but beep. -/
theorem everyCycleReportsALegalStatus : Obligations.EveryCycleReportsALegalStatus := by
  intro s t hstep
  rcases step_cases hstep with ⟨_, rfl⟩ | ⟨_, _, _, _, rfl⟩ | ⟨_, _, u, _, _, he, rfl⟩
  · simp [Status.legal]
  · simp [Status.legal]
  · rw [State.endCycle_status]
    exact exec_legal he

end Sys2Proof.Machine

namespace Sys2Proof.Instr

open Sys2Proof.Machine

/-! ## The error of an instruction (R262, R263) -/

/-- The bytes the instruction accesses are not all in MEM (R64). -/
abbrev leavesMem (i : Instr) (s : State) : Prop := 0 < i.accessedBytes ∧ 0x1000 < s.i.toNat + i.accessedBytes

/-- Cause and info of the instruction in a state it begins in, as R262 and R263 give them. -/
def error (i : Instr) (s : State) : Cause × BitVec 17 :=
  if i.leavesMem s then (.memRange, infoOfAddress (max s.i.toNat 0x1000))
  else
    match i with
    | .callAddr _ => if s.sp.val = 16 then (.stackOverflow, infoOfHalf (encode i)) else (.none, 0#17)
    | .ret _ _ => if s.sp.val = 0 then (.stackUnderflow, infoOfHalf (encode i)) else (.none, 0#17)
    | _ => (.none, 0#17)

/-- What the error of an instruction can be, each with its condition. -/
inductive ErrorShape (i : Instr) (s : State) (r : Cause × BitVec 17) : Prop where
  | overflow (nnn : Addr12) (call : i = .callAddr nnn) (full : s.sp.val = 16)
      (h : r = (.stackOverflow, infoOfHalf (encode i))) : ErrorShape i s r
  | underflow (gx gy : Nibble) (ret : i = .ret gx gy) (empty : s.sp.val = 0)
      (h : r = (.stackUnderflow, infoOfHalf (encode i))) : ErrorShape i s r
  | range (out : i.leavesMem s) (h : r = (.memRange, infoOfAddress (max s.i.toNat 0x1000))) : ErrorShape i s r
  | none (call : ∀ nnn, i = .callAddr nnn → s.sp.val ≠ 16) (ret : ∀ gx gy, i = .ret gx gy → s.sp.val ≠ 0)
      (inside : ¬ i.leavesMem s) (h : r = (.none, 0#17)) : ErrorShape i s r

theorem error_shape (i : Instr) (s : State) : ErrorShape i s (i.error s) := by
  by_cases hr : i.leavesMem s
  · exact .range hr (if_pos hr)
  · cases i with
    | callAddr nnn =>
      by_cases hfull : s.sp.val = 16
      · exact .overflow nnn rfl hfull ((if_neg hr).trans (if_pos hfull))
      · exact .none (fun _ _ => hfull) nofun hr ((if_neg hr).trans (if_neg hfull))
    | ret gx gy =>
      by_cases hempty : s.sp.val = 0
      · exact .underflow gx gy rfl hempty ((if_neg hr).trans (if_pos hempty))
      · exact .none nofun (fun _ _ _ => hempty) hr ((if_neg hr).trans (if_neg hempty))
    | _ => exact .none nofun nofun hr (if_neg hr)

end Sys2Proof.Instr

namespace Sys2Proof.Machine

theorem exec_error {i : Instr} {s t : State} (h : exec i s = .next t) :
    (t.status.cause, t.status.info) = i.error s := by
  by_cases hr : i.leavesMem s
  · cases (exec_of_range_error hr.1 hr.2).symm.trans h
    exact (if_pos hr).symm
  · have hin : t.status.cause ≠ .memRange := fun hc => hr (range_of_memRange h hc)
    refine Eq.trans ?_ (if_neg hr).symm
    cases i with
    | callAddr nnn =>
      rcases s.push_cases (s.pc + 2#16) with ⟨hfull, hpush⟩ | ⟨_, hlt, hpush, -⟩ <;>
        simp only [exec, execCallAddr, hpush] at h <;> cases h
      · exact (if_pos hfull).symm
      · exact (if_neg hlt.ne).symm
    | ret x y =>
      rcases s.pop_cases with ⟨hempty, hpop⟩ | ⟨hpos, _, _, hpop, -⟩ <;>
        simp only [exec, execRet, hpop] at h <;> cases h
      · exact (if_pos hempty).symm
      · exact (if_neg hpos.ne').symm
    | drwVxVyN _ _ _ | ldBVx _ _ | ldMemIVx _ | ldVxMemI _ =>
      simp only [exec, execDrwVxVyN, execLdBVx, execLdMemIVx, execLdVxMemI] at h
      split at h <;> cases h
      · exact absurd rfl hin
      · rfl
    | ldVxK _ _ =>
      simp only [exec, execLdVxK] at h
      split at h <;> cases h <;> rfl
    | _ =>
      cases h
      rfl

/-! ## The error of a cycle (R265) -/

theorem fetch_eq_none_iff (s : State) : s.fetch = none ↔ 0xFFF ≤ s.pc.toNat := by
  rw [fetch_eq, ite_eq_right_iff, imp_iff_not (Option.some_ne_none _)]
  omega

theorem infoOfHalf_toNat (a : Half) : (infoOfHalf a).toNat = a.toNat :=
  BitVec.toNat_setWidth_of_le (by decide)

/-- Cause and info of the coming cycle: of its fetch, else of its dispatch, else of its instruction. -/
def State.cycleError (s : State) : Cause × BitVec 17 :=
  match s.fetch with
  | none => (.fetchRange, infoOfHalf s.pc)
  | some op =>
    match decode op with
    | .error _ => (.decode, infoOfHalf op)
    | .ok i => i.error s

theorem step_cycleError {s t : State} (h : step s = .next t) : (t.status.cause, t.status.info) = s.cycleError := by
  rcases step_cases h with ⟨hf, rfl⟩ | ⟨op, e, hf, hd, rfl⟩ | ⟨op, i, u, hf, hd, he, rfl⟩
  · simp [State.cycleError, hf]
  · simp [State.cycleError, hf, hd]
  · simp [State.cycleError, hf, hd, ← exec_error he]

/-- The error of a cycle is a function of PC, MEM, SP and I. -/
theorem State.cycleError_of_frame {s t : State} {w : List Part} (h : frame w s t) (hpc : .pc ∉ w) (hmem : .mem ∉ w)
    (hstack : .stack ∉ w) (hindex : .index ∉ w) : t.cycleError = s.cycleError := by
  have hpc' : t.pc = s.pc := h .pc hpc
  have hmem' : ∀ a, t.mem.read a = s.mem.read a := h .mem hmem
  obtain ⟨hsp, -⟩ := h .stack hstack
  have hi : t.i = s.i := h .index hindex
  simp only [State.cycleError, Instr.error, Instr.leavesMem, fetch_eq, hpc', hmem', hsp, hi]

/-- Settles O16: a fatal cycle keeps what the error is a function of (O15), and a legal STATUS (O18) with that error's
cause is fatal again. -/
theorem aFatalErrorRepeatsForEver : Obligations.AFatalErrorRepeatsForEver := by
  intro s t u hstep hfatal hstep'
  have hframe := fatalAndWaitingCyclesKeepTheState s t hstep (.inl hfatal)
  have hsame : (u.status.cause, u.status.info) = (t.status.cause, t.status.info) :=
    calc
      _ = t.cycleError := step_cycleError hstep'
      _ = s.cycleError := State.cycleError_of_frame hframe (by decide) (by decide) (by decide) (by decide)
      _ = _ := (step_cycleError hstep).symm
  obtain ⟨hcause, hinfo⟩ := Prod.mk.inj hsame
  refine ⟨?_, hcause, hinfo⟩
  rw [(everyCycleReportsALegalStatus t u hstep').fatalError_iff, hcause]
  exact (everyCycleReportsALegalStatus s t hstep).fatalError_iff.1 hfatal

/-- Settles O17, by the error of the cycle: its fetch's, its dispatch's, or one of the four shapes of its instruction's,
each of which excludes the conditions of the others. -/
theorem eachErrorCauseHasExactlyItsCondition : Obligations.EachErrorCauseHasExactlyItsCondition := by
  intro s t hstep
  have hcause : t.status.cause = s.cycleError.1 := congrArg Prod.fst (step_cycleError hstep)
  have hinfo : t.status.info = s.cycleError.2 := congrArg Prod.snd (step_cycleError hstep)
  rw [hcause, hinfo, ← fetch_eq_none_iff]
  cases hf : s.fetch with
  | none => simp [State.cycleError, State.nextInstr, hf, infoOfHalf_toNat]
  | some op =>
    cases hd : decode op with
    | error e => simp [State.cycleError, State.nextInstr, hf, hd, infoOfHalf_toNat, Except.toOption]
    | ok i =>
      have hnext : s.nextInstr = some i := nextInstr_of_decode hf hd
      have herr : s.cycleError = i.error s := by simp [State.cycleError, hf, hd]
      have hop : encode i = op := encodeOfDecodeIsTheWord op i hd
      rcases i.error_shape s with ⟨nnn, rfl, hfull, h⟩ | ⟨gx, gy, rfl, hempty, h⟩ | ⟨hout, h⟩ | ⟨hcall, hret, hin, h⟩
      · simp [herr, h, hd, hnext, hop, hfull, infoOfHalf_toNat, Instr.accessedBytes]
      · simp [herr, h, hd, hnext, hop, hempty, infoOfHalf_toNat, Instr.accessedBytes]
      · have hcall : ∀ nnn, i ≠ .callAddr nnn := by
          rintro _ rfl
          exact Nat.lt_irrefl 0 hout.1
        have hret : ∀ gx gy, i ≠ .ret gx gy := by
          rintro _ _ rfl
          exact Nat.lt_irrefl 0 hout.1
        have hinfo := infoOfAddress_toNat (a := max s.i.toNat 0x1000) (by have := s.i.isLt; omega)
        simp [herr, h, hd, hnext, hout, hcall, hret, hinfo]
      · simpa [herr, h, hd, hnext, Instr.leavesMem] using And.intro hcall (And.intro hret hin)

end Sys2Proof.Machine
end

section
/-! SUPPORT. Proofs about program load and timer latency (spec/70_reset_and_hazards.md): the load by whether its bytes
fit, and DT along cycles that leave it to the tick. -/

namespace Sys2Proof.Machine

/-! ## Program load (R293, R294) -/

/-- Settles O58: the load is a store of the bytes from 0x200 on, which succeeds exactly where they end inside MEM. -/
theorem programLoadCopiesTheBytesOrRejects : Obligations.ProgramLoadCopiesTheBytesOrRejects := by
  intro s bytes
  refine ⟨fun hfits => ?_, fun hlong => ?_⟩
  · obtain ⟨m, hm, hread, -⟩ := s.mem.storeBytes_ok 0x200 bytes (.inr (by omega))
    refine ⟨{ s with mem := m }, by simp only [State.loadProgram, hm], fun j hj => ?_,
      fun a hout => (hread a).trans (if_neg hout), by simp⟩
    rw [hread, if_pos (by omega), Nat.add_sub_cancel_left]
  · have hne : bytes ≠ [] := List.ne_nil_of_length_pos (by omega)
    simp only [State.loadProgram, s.mem.storeBytes_error 0x200 bytes hne (by omega)]

/-! ## DT along ticked cycles (R301) -/

@[simp] theorem State.endCycle_reg (s : State) (r : Nibble) : s.endCycle.reg r = s.reg r := by simp [State.endCycle]

/-- A cycle that is no FX15 leaves DT to its tick, whatever its outcome (R123, R125). -/
theorem step_dt_toNat {s t : State} (hstep : step s = .next t) (hkeep : ∀ x, s.nextInstr ≠ some (.ldDtVx x))
    (hon : s.inp.tickEn = true) : t.dt.toNat = s.dt.toNat - 1 := by
  obtain ⟨u, hframe, rfl⟩ := step_frame hstep
  obtain ⟨hinp, -⟩ := hframe .inputs s.inputs_not_mem_cycleWrites
  have hdt : u.dt = s.dt := hframe .dt (State.dt_not_mem_cycleWrites hkeep)
  rw [(tickCountsTheDelayTimerDown u).1 (hinp ▸ hon), hdt]

theorem TickedCycles.dt_toNat {k : Nat} {s t : State} (h : TickedCycles k s t) : t.dt.toNat = s.dt.toNat - k := by
  induction h with
  | none s => rfl
  | cycle hon hkeep hstep _ ih => rw [ih, step_dt_toNat hstep hkeep hon, Nat.sub_sub, Nat.add_comm]

/-- Settles O47: FX15's own tick takes the first 1 off (O45), the `k` cycles take 1 each, and FX07 reads DT before its
own tick (O44). -/
theorem delayTimerReadsBackCountedDownByTheCycles : Obligations.DelayTimerReadsBackCountedDownByTheCycles := by
  intro k x y gy s t u w hset hon hstep hcycles hget hstep'
  obtain ⟨⟨armed, ⟨hexec, -⟩, -, -, -, htick⟩, -⟩ := timerWritesAreTickedInTheirOwnCycle x gy s
  obtain rfl : armed.endCycle = t := Host.Outcome.next.inj ((step_of_nextInstr hset hexec).symm.trans hstep)
  obtain ⟨got, ⟨hexec', -⟩, hread, -⟩ := readDelayTimerComesBeforeTheTick y gy u
  obtain rfl : got.endCycle = w := Host.Outcome.next.inj ((step_of_nextInstr hget hexec').symm.trans hstep')
  calc (got.endCycle.reg y).toNat
      = u.dt.toNat := by rw [State.endCycle_reg, hread]
    _ = armed.endCycle.dt.toNat - k := hcycles.dt_toNat
    _ = (s.reg x).toNat - 1 - k := by rw [htick hon]
    _ = (s.reg x).toNat - (k + 1) := by rw [Nat.sub_sub, Nat.add_comm]

end Sys2Proof.Machine
end
